-- ==== Sys2Proof/Word.lean ====
section
/-! DEFINITION. The words of the machine: the widths of rules R5, R6 and R56. -/

namespace Sys2Proof

/-- A byte: a general register, a timer, a memory cell (rules R10, R16, R35). -/
abbrev Byte := BitVec 8

/-- A 16-bit value: an instruction word, I, pc, a stack entry (rules R12, R13, R15, R55). -/
abbrev Word := BitVec 16

/-- A 4-bit value: the sprite height `n`, a key (rules R20, R56). -/
abbrev Nibble := BitVec 4

/-- A general register's index, the `x` and `y` fields; all 16 values are legal (rules R10, R58). -/
abbrev RegIdx := BitVec 4

/-- The 12-bit address field `nnn` (rule R56). -/
abbrev Addr12 := BitVec 12

end Sys2Proof
end

