-- ==== Sys2Proof/Config.lean ====
section
/-! DEFINITION. The parameters of rule R5 and the values the spec leaves open: constants with a value where the spec
gives this hardware one, opaque constants (no body, so no proof can know their value) where it gives none. -/

namespace Sys2Proof

/-- `MEM_SIZE` (rules R5, R35): addresses 0x000 to 0xFFF. -/
def Config.memSize : Nat := 0x1000

/-- `PROG_BASE` (rules R5, R36): the first byte of the program region and the reset entry point. -/
def Config.progBase : Nat := 0x200

/-- `ROM_MAX` (rules R5, R44): 0x1000 − 0x200 = 3584 bytes. -/
def Config.romMax : Nat := 0xE00

/-- `STACK_DEPTH` (rules R5, R15). -/
def Config.stackDepth : Nat := 16

/-- `FB_W` (rules R5, R18): columns of the pixel buffer. -/
def Config.fbWidth : Nat := 64

/-- `FB_H` (rules R5, R18): rows of the pixel buffer. -/
def Config.fbHeight : Nat := 32

/-- `TIMER_HZ` (rules R5, R179): the host's Tick rate; no rule of behaviour uses it. -/
def Config.timerHz : Nat := 60

/-- `GLYPH_BYTES` (rules R5, R43). -/
def Config.glyphBytes : Nat := 5

/-- `GLYPH_COUNT` (rules R5, R43). -/
def Config.glyphCount : Nat := 16

/-- The size of the font table: 16 glyphs of 5 bytes (rules R5, R36). -/
def Config.fontSize : Nat := 80

/-- `FONT_BASE`, OPEN (rules R5, R36; decision D3; log 1): 0 ≤ FONT_BASE ≤ 0x1B0, and nothing else is known of it.
A FREE VALUE: it has no body. -/
opaque Config.fontBase : Fin 0x1B1

/-- `FONT_TABLE`, OPEN (rules R5, R43; decision D4; log 2): 80 bytes of which the spec gives none.
A FREE VALUE: it has no body. -/
opaque Config.fontTable : Vector Byte 80

/-- The random byte of the `k`-th executed Rnd (rules R22, R81, R119; decision D26; log 3).
A FREE VALUE: it has no body. -/
opaque Config.rndByte : Nat → Byte

/-- `SHIFT_USES_VY` (rules R5, R115): false on this hardware. -/
def Config.shiftUsesVy : Bool := false

/-- `DRAW_WRAP` (rules R5, R142): false on this hardware. -/
def Config.drawWrap : Bool := false

/-- `MEM_FILL` (rules R5, R25; decision D5; log 4): the byte at reset of every cell outside font and ROM. -/
def Config.memFill : Byte := 0x00

/-- The customary font, the default of `FONT_TABLE` that rule R43 gives for test vectors only, "from general
knowledge, not in source" (log 2). The machine does not use it. -/
def Config.customaryFont : List Byte :=
  [0xF0, 0x90, 0x90, 0x90, 0xF0] ++ [0x20, 0x60, 0x20, 0x20, 0x70] ++
  [0xF0, 0x10, 0xF0, 0x80, 0xF0] ++ [0xF0, 0x10, 0xF0, 0x10, 0xF0] ++
  [0x90, 0x90, 0xF0, 0x10, 0x10] ++ [0xF0, 0x80, 0xF0, 0x10, 0xF0] ++
  [0xF0, 0x80, 0xF0, 0x90, 0xF0] ++ [0xF0, 0x10, 0x20, 0x40, 0x40] ++
  [0xF0, 0x90, 0xF0, 0x90, 0xF0] ++ [0xF0, 0x90, 0xF0, 0x10, 0xF0] ++
  [0xF0, 0x90, 0xF0, 0x90, 0x90] ++ [0xE0, 0x90, 0xE0, 0x90, 0xE0] ++
  [0xF0, 0x80, 0x80, 0x80, 0xF0] ++ [0xE0, 0x90, 0x90, 0x90, 0xE0] ++
  [0xF0, 0x80, 0xF0, 0x80, 0xF0] ++ [0xF0, 0x80, 0xF0, 0x80, 0x80]

end Sys2Proof
end

