-- ==== Sys2Proof/Syntax.lean ====
section
/-! DEFINITION. The instruction set as syntax: one constructor per row of spec/opcode_table.json (rule R60), and the
decoder's closed result type (rule R67). -/

namespace Sys2Proof

/-- The 34 instructions, in the order of rule R60's opcode map. Each carries "only the operand fields relevant to it"
(rule R58), at the width the word gives them, so that every term is an instruction some word encodes.
`shr` and `shl` carry `vy` although this hardware ignores it (rules R59, R115). -/
inductive Instr where
  /-- `00E0`, clear the pixel buffer (rule R140). -/
  | cls
  /-- `00EE`, return (rule R90). -/
  | ret
  /-- `1nnn`, jump (rule R91). -/
  | jmp (nnn : Addr12)
  /-- `2nnn`, call (rule R92). -/
  | call (nnn : Addr12)
  /-- `3xkk`, skip if Vx = kk (rule R94). -/
  | seVx (vx : RegIdx) (value : Byte)
  /-- `4xkk`, skip if Vx ≠ kk (rule R95). -/
  | sneVx (vx : RegIdx) (value : Byte)
  /-- `5xy0`, skip if Vx = Vy (rule R96). -/
  | seVxVy (vx vy : RegIdx)
  /-- `6xkk`, set Vx (rule R106). -/
  | ldVx (vx : RegIdx) (value : Byte)
  /-- `7xkk`, add immediate, no flag (rule R107). -/
  | addVx (vx : RegIdx) (value : Byte)
  /-- `8xy0`, move (rule R108). -/
  | ldVxVy (vx vy : RegIdx)
  /-- `8xy1` (rule R109). -/
  | or (vx vy : RegIdx)
  /-- `8xy2` (rule R110). -/
  | and (vx vy : RegIdx)
  /-- `8xy3` (rule R111). -/
  | xor (vx vy : RegIdx)
  /-- `8xy4`, add, VF = carry (rule R112). -/
  | add (vx vy : RegIdx)
  /-- `8xy5`, subtract, VF = not-borrow (rule R113). -/
  | sub (vx vy : RegIdx)
  /-- `8xy6`, shift right by one, VF = bit out (rule R116). -/
  | shr (vx vy : RegIdx)
  /-- `8xy7`, reversed subtract, VF = not-borrow (rule R117). -/
  | subn (vx vy : RegIdx)
  /-- `8xyE`, shift left by one, VF = bit out (rule R118). -/
  | shl (vx vy : RegIdx)
  /-- `9xy0`, skip if Vx ≠ Vy (rule R97). -/
  | sneVxVy (vx vy : RegIdx)
  /-- `Annn`, I = nnn (rule R126). -/
  | ldI (nnn : Addr12)
  /-- `Bnnn`, jump to nnn + V0 (rule R93). -/
  | jmpV0 (nnn : Addr12)
  /-- `Cxkk`, random byte AND kk (rule R119). -/
  | rnd (vx : RegIdx) (value : Byte)
  /-- `Dxyn`, draw (rule R142). -/
  | drw (vx vy : RegIdx) (n : Nibble)
  /-- `Ex9E`, skip if key Vx is pressed (rule R154). -/
  | skp (vx : RegIdx)
  /-- `ExA1`, skip if key Vx is not pressed (rule R155). -/
  | sknp (vx : RegIdx)
  /-- `Fx07`, Vx = DT (rule R150). -/
  | ldVxDt (vx : RegIdx)
  /-- `Fx0A`, wait for a key (rule R151). -/
  | ldVxKey (vx : RegIdx)
  /-- `Fx15`, DT = Vx (rule R152). -/
  | ldDtVx (vx : RegIdx)
  /-- `Fx18`, ST = Vx (rule R153). -/
  | ldStVx (vx : RegIdx)
  /-- `Fx1E`, I += Vx (rule R127). -/
  | addIVx (vx : RegIdx)
  /-- `Fx29`, I = address of a glyph (rule R128). -/
  | ldFVx (vx : RegIdx)
  /-- `Fx33`, store the decimal digits of Vx (rule R129). -/
  | ldBVx (vx : RegIdx)
  /-- `Fx55`, store V0 to Vx (rule R130). -/
  | stRegs (vx : RegIdx)
  /-- `Fx65`, load V0 to Vx (rule R131). -/
  | ldRegs (vx : RegIdx)
  deriving DecidableEq, Repr

/-- What `decode` answers (rules R59, R67): one of the 34 instructions, or the whole word, rejected by name. -/
inductive Decoded where
  /-- The word is an instruction. -/
  | instr (i : Instr)
  /-- The source's `Unrecognized(word)` (rule R61). -/
  | unrecognized (w : Word)
  deriving DecidableEq, Repr

/-- What decoding a byte list answers: an instruction and the bytes after it, a rejected word, or too few bytes. -/
inductive DecodedBytes where
  | instr (i : Instr) (rest : List Byte)
  | unrecognized (w : Word) (rest : List Byte)
  | truncated
  deriving DecidableEq, Repr

/-- One row of the opcode map: a word `w` selects the row when `w &&& mask = bits` (rule R60). -/
structure OpcodeRow where
  mnemonic : String
  mask : Word
  bits : Word
  deriving DecidableEq, Repr

/-- One operand field: its value and its width in bits (rule R56). -/
structure Field where
  value : Nat
  width : Nat
  deriving DecidableEq, Repr

end Sys2Proof
end

