-- ==== Sys2Proof/WellFormed.lean ====
section
/-! DEFINITION. Well-formed instructions: every operand fits the field its format gives it (rules R56 to R58). The
check is on plain numbers, as an assembler or a generator would hold them; `Instr`'s operands carry their widths in
their types, so that every term of `Instr` passes it (Laws/Encoding.lean, `Instr.wellFormed_all`). -/

namespace Sys2Proof

/-- A field holds its value: `value < 2 ^ width`. -/
def Field.fits (f : Field) : Bool := decide (f.value < 2 ^ f.width)

/-- The `x` or `y` field of a register operand: 4 bits (rule R56). -/
def Field.reg (x : Nat) : Field := ⟨x, 4⟩

/-- The `kk` field: 8 bits (rule R56). -/
def Field.imm8 (kk : Nat) : Field := ⟨kk, 8⟩

/-- The `nnn` field: 12 bits (rule R56). -/
def Field.addr12 (nnn : Nat) : Field := ⟨nnn, 12⟩

/-- The `n` field: 4 bits (rule R56). -/
def Field.height (n : Nat) : Field := ⟨n, 4⟩

/-- The operand fields of an instruction, by its format (rule R57). -/
def Instr.fields : Instr → List Field
  | .cls | .ret => []
  | .jmp nnn | .call nnn | .ldI nnn | .jmpV0 nnn => [.addr12 nnn.toNat]
  | .seVx x kk | .sneVx x kk | .ldVx x kk | .addVx x kk | .rnd x kk => [.reg x.toNat, .imm8 kk.toNat]
  | .seVxVy x y | .ldVxVy x y | .or x y | .and x y | .xor x y | .add x y | .sub x y | .shr x y | .subn x y
  | .shl x y | .sneVxVy x y => [.reg x.toNat, .reg y.toNat]
  | .drw x y n => [.reg x.toNat, .reg y.toNat, .height n.toNat]
  | .skp x | .sknp x | .ldVxDt x | .ldVxKey x | .ldDtVx x | .ldStVx x | .addIVx x | .ldFVx x | .ldBVx x
  | .stRegs x | .ldRegs x => [.reg x.toNat]

/-- Every field of a list holds its value. -/
def fieldsFit (fs : List Field) : Bool := fs.all Field.fits

/-- An instruction is well formed when each operand fits its field (rule R58). -/
abbrev Instr.WellFormed (i : Instr) : Prop := fieldsFit i.fields = true

end Sys2Proof
end

