-- ==== Sys2Proof/Decode.lean ====
section
/-! DEFINITION. The decoder (rules R55 to R61) and, written from the same opcode map, the encoder. -/

namespace Sys2Proof

/-! ### The fields of a word (rule R56) -/

/-- `op = w[15:12]`. -/
def opOf (w : Word) : Nibble := w.extractLsb' 12 4

/-- `x = w[11:8]`. -/
def xOf (w : Word) : RegIdx := w.extractLsb' 8 4

/-- `y = w[7:4]`. -/
def yOf (w : Word) : RegIdx := w.extractLsb' 4 4

/-- `n = w[3:0]`. -/
def nOf (w : Word) : Nibble := w.extractLsb' 0 4

/-- `kk = w[7:0]`. -/
def kkOf (w : Word) : Byte := w.extractLsb' 0 8

/-- `nnn = w[11:0]`. -/
def nnnOf (w : Word) : Addr12 := w.extractLsb' 0 12

/-! ### The decode function (rule R59) -/

/-- Family 0x0: only the two whole words `00E0` and `00EE`. -/
def decodeFamily0 (w : Word) : Decoded :=
  if w = 0x00E0#16 then .instr .cls else if w = 0x00EE#16 then .instr .ret else .unrecognized w

/-- Families 0x5 and 0x9: the low nibble must be 0 (rule R61). -/
def decodeLowZero (w : Word) (i : Instr) : Decoded :=
  if nOf w = 0x0#4 then .instr i else .unrecognized w

/-- Family 0x8: the low nibble selects the operation (rule R60 note (a)). -/
def decodeFamily8 (w : Word) : Decoded :=
  match nOf w with
  | 0x0#4 => .instr (.ldVxVy (xOf w) (yOf w))
  | 0x1#4 => .instr (.or (xOf w) (yOf w))
  | 0x2#4 => .instr (.and (xOf w) (yOf w))
  | 0x3#4 => .instr (.xor (xOf w) (yOf w))
  | 0x4#4 => .instr (.add (xOf w) (yOf w))
  | 0x5#4 => .instr (.sub (xOf w) (yOf w))
  | 0x6#4 => .instr (.shr (xOf w) (yOf w))
  | 0x7#4 => .instr (.subn (xOf w) (yOf w))
  | 0xE#4 => .instr (.shl (xOf w) (yOf w))
  | _ => .unrecognized w

/-- Family 0xE: the low byte selects the operation. -/
def decodeFamilyE (w : Word) : Decoded :=
  match kkOf w with
  | 0x9E#8 => .instr (.skp (xOf w))
  | 0xA1#8 => .instr (.sknp (xOf w))
  | _ => .unrecognized w

/-- Family 0xF: the low byte selects the operation (rule R60 note (b) for 07, 15 and 18). -/
def decodeFamilyF (w : Word) : Decoded :=
  match kkOf w with
  | 0x07#8 => .instr (.ldVxDt (xOf w))
  | 0x0A#8 => .instr (.ldVxKey (xOf w))
  | 0x15#8 => .instr (.ldDtVx (xOf w))
  | 0x18#8 => .instr (.ldStVx (xOf w))
  | 0x1E#8 => .instr (.addIVx (xOf w))
  | 0x29#8 => .instr (.ldFVx (xOf w))
  | 0x33#8 => .instr (.ldBVx (xOf w))
  | 0x55#8 => .instr (.stRegs (xOf w))
  | 0x65#8 => .instr (.ldRegs (xOf w))
  | _ => .unrecognized w

/-- `decode(w)` (rules R59, R66): a total pure function of the word, the most significant nibble inspected first.
The last arm is the one nibble left, 0xF. -/
def decode (w : Word) : Decoded :=
  match opOf w with
  | 0x0#4 => decodeFamily0 w
  | 0x1#4 => .instr (.jmp (nnnOf w))
  | 0x2#4 => .instr (.call (nnnOf w))
  | 0x3#4 => .instr (.seVx (xOf w) (kkOf w))
  | 0x4#4 => .instr (.sneVx (xOf w) (kkOf w))
  | 0x5#4 => decodeLowZero w (.seVxVy (xOf w) (yOf w))
  | 0x6#4 => .instr (.ldVx (xOf w) (kkOf w))
  | 0x7#4 => .instr (.addVx (xOf w) (kkOf w))
  | 0x8#4 => decodeFamily8 w
  | 0x9#4 => decodeLowZero w (.sneVxVy (xOf w) (yOf w))
  | 0xA#4 => .instr (.ldI (nnnOf w))
  | 0xB#4 => .instr (.jmpV0 (nnnOf w))
  | 0xC#4 => .instr (.rnd (xOf w) (kkOf w))
  | 0xD#4 => .instr (.drw (xOf w) (yOf w) (nOf w))
  | 0xE#4 => decodeFamilyE w
  | _ => decodeFamilyF w

/-- A word from its two bytes, the byte at the lower address first: bits 15:8 (rules R40, R45, R55). -/
def wordOfBytes (hi lo : Byte) : Word := hi ++ lo

/-- The high byte of a word, the one that lies at the lower address (rule R55). -/
def hiByte (w : Word) : Byte := w.extractLsb' 8 8

/-- The low byte of a word. -/
def loByte (w : Word) : Byte := w.extractLsb' 0 8

/-- Decode the instruction at the front of a byte list; every instruction is two bytes (rules R55, R63). -/
def decodeBytes : List Byte → DecodedBytes
  | hi :: lo :: rest =>
    match decode (wordOfBytes hi lo) with
    | .instr i => .instr i rest
    | .unrecognized w => .unrecognized w rest
  | [_] => .truncated
  | [] => .truncated

/-! ### The encoder, from the opcode map of rule R60 -/

/-- Format A: `op nnn`. -/
def encodeA (op : Nibble) (nnn : Addr12) : Word := op ++ nnn

/-- Format XK: `op x kk`. -/
def encodeXK (op : Nibble) (x : RegIdx) (kk : Byte) : Word := (op ++ x) ++ kk

/-- Formats XY and XYN: `op x y n`. -/
def encodeXYN (op : Nibble) (x y : RegIdx) (n : Nibble) : Word := (op ++ x) ++ (y ++ n)

/-- The word of an instruction. -/
def encode : Instr → Word
  | .cls => 0x00E0#16
  | .ret => 0x00EE#16
  | .jmp nnn => encodeA 0x1#4 nnn
  | .call nnn => encodeA 0x2#4 nnn
  | .seVx x kk => encodeXK 0x3#4 x kk
  | .sneVx x kk => encodeXK 0x4#4 x kk
  | .seVxVy x y => encodeXYN 0x5#4 x y 0x0#4
  | .ldVx x kk => encodeXK 0x6#4 x kk
  | .addVx x kk => encodeXK 0x7#4 x kk
  | .ldVxVy x y => encodeXYN 0x8#4 x y 0x0#4
  | .or x y => encodeXYN 0x8#4 x y 0x1#4
  | .and x y => encodeXYN 0x8#4 x y 0x2#4
  | .xor x y => encodeXYN 0x8#4 x y 0x3#4
  | .add x y => encodeXYN 0x8#4 x y 0x4#4
  | .sub x y => encodeXYN 0x8#4 x y 0x5#4
  | .shr x y => encodeXYN 0x8#4 x y 0x6#4
  | .subn x y => encodeXYN 0x8#4 x y 0x7#4
  | .shl x y => encodeXYN 0x8#4 x y 0xE#4
  | .sneVxVy x y => encodeXYN 0x9#4 x y 0x0#4
  | .ldI nnn => encodeA 0xA#4 nnn
  | .jmpV0 nnn => encodeA 0xB#4 nnn
  | .rnd x kk => encodeXK 0xC#4 x kk
  | .drw x y n => encodeXYN 0xD#4 x y n
  | .skp x => encodeXK 0xE#4 x 0x9E#8
  | .sknp x => encodeXK 0xE#4 x 0xA1#8
  | .ldVxDt x => encodeXK 0xF#4 x 0x07#8
  | .ldVxKey x => encodeXK 0xF#4 x 0x0A#8
  | .ldDtVx x => encodeXK 0xF#4 x 0x15#8
  | .ldStVx x => encodeXK 0xF#4 x 0x18#8
  | .addIVx x => encodeXK 0xF#4 x 0x1E#8
  | .ldFVx x => encodeXK 0xF#4 x 0x29#8
  | .ldBVx x => encodeXK 0xF#4 x 0x33#8
  | .stRegs x => encodeXK 0xF#4 x 0x55#8
  | .ldRegs x => encodeXK 0xF#4 x 0x65#8

/-- The bytes of an instruction as memory holds them, lower address first (rule R55). -/
def encodeBytes (i : Instr) : List Byte := [hiByte (encode i), loByte (encode i)]

/-! ### The opcode map as a table (rule R60) -/

/-- The row of the opcode map that an instruction belongs to. -/
def Instr.row : Instr → OpcodeRow
  | .cls => ⟨"Cls", 0xFFFF, 0x00E0⟩
  | .ret => ⟨"Ret", 0xFFFF, 0x00EE⟩
  | .jmp _ => ⟨"Jmp", 0xF000, 0x1000⟩
  | .call _ => ⟨"Call", 0xF000, 0x2000⟩
  | .seVx _ _ => ⟨"SeVx", 0xF000, 0x3000⟩
  | .sneVx _ _ => ⟨"SneVx", 0xF000, 0x4000⟩
  | .seVxVy _ _ => ⟨"SeVxVy", 0xF00F, 0x5000⟩
  | .ldVx _ _ => ⟨"LdVx", 0xF000, 0x6000⟩
  | .addVx _ _ => ⟨"AddVx", 0xF000, 0x7000⟩
  | .ldVxVy _ _ => ⟨"LdVxVy", 0xF00F, 0x8000⟩
  | .or _ _ => ⟨"Or", 0xF00F, 0x8001⟩
  | .and _ _ => ⟨"And", 0xF00F, 0x8002⟩
  | .xor _ _ => ⟨"Xor", 0xF00F, 0x8003⟩
  | .add _ _ => ⟨"Add", 0xF00F, 0x8004⟩
  | .sub _ _ => ⟨"Sub", 0xF00F, 0x8005⟩
  | .shr _ _ => ⟨"Shr", 0xF00F, 0x8006⟩
  | .subn _ _ => ⟨"Subn", 0xF00F, 0x8007⟩
  | .shl _ _ => ⟨"Shl", 0xF00F, 0x800E⟩
  | .sneVxVy _ _ => ⟨"SneVxVy", 0xF00F, 0x9000⟩
  | .ldI _ => ⟨"LdI", 0xF000, 0xA000⟩
  | .jmpV0 _ => ⟨"JmpV0", 0xF000, 0xB000⟩
  | .rnd _ _ => ⟨"Rnd", 0xF000, 0xC000⟩
  | .drw _ _ _ => ⟨"Drw", 0xF000, 0xD000⟩
  | .skp _ => ⟨"Skp", 0xF0FF, 0xE09E⟩
  | .sknp _ => ⟨"Sknp", 0xF0FF, 0xE0A1⟩
  | .ldVxDt _ => ⟨"LdVxDt", 0xF0FF, 0xF007⟩
  | .ldVxKey _ => ⟨"LdVxKey", 0xF0FF, 0xF00A⟩
  | .ldDtVx _ => ⟨"LdDtVx", 0xF0FF, 0xF015⟩
  | .ldStVx _ => ⟨"LdStVx", 0xF0FF, 0xF018⟩
  | .addIVx _ => ⟨"AddIVx", 0xF0FF, 0xF01E⟩
  | .ldFVx _ => ⟨"LdFVx", 0xF0FF, 0xF029⟩
  | .ldBVx _ => ⟨"LdBVx", 0xF0FF, 0xF033⟩
  | .stRegs _ => ⟨"StRegs", 0xF0FF, 0xF055⟩
  | .ldRegs _ => ⟨"LdRegs", 0xF0FF, 0xF065⟩

/-- One instruction of each row, in the order of rule R60. -/
def rowExemplars : List Instr :=
  [.cls, .ret, .jmp 0, .call 0, .seVx 0 0, .sneVx 0 0, .seVxVy 0 0, .ldVx 0 0, .addVx 0 0, .ldVxVy 0 0, .or 0 0,
    .and 0 0, .xor 0 0, .add 0 0, .sub 0 0, .shr 0 0, .subn 0 0, .shl 0 0, .sneVxVy 0 0, .ldI 0, .jmpV0 0, .rnd 0 0,
    .drw 0 0 0, .skp 0, .sknp 0, .ldVxDt 0, .ldVxKey 0, .ldDtVx 0, .ldStVx 0, .addIVx 0, .ldFVx 0, .ldBVx 0,
    .stRegs 0, .ldRegs 0]

/-- The 34 rows of the opcode map (rule R60). -/
def opcodeTable : List OpcodeRow := rowExemplars.map Instr.row

/-- A word selects a row (rule R60). -/
abbrev OpcodeRow.selects (r : OpcodeRow) (w : Word) : Prop := w &&& r.mask = r.bits

/-! ### The host's reading of the opcode table -/

/-- The word of an instruction whose bits are `w`, numbered as spec/opcode_table.json numbers them; the bits from
`nbits` up are 0. Every instruction is one word (rule R55), so bit 0 is the word's own bit 0. -/
def tableWord (nbits w : Nat) : Word := BitVec.ofNat 16 (w % 2 ^ nbits)

/-- The instruction the decoder reads from `w`'s bytes, laid out big-endian as the hardware stores them. -/
def decodeTableWord (nbits w : Nat) : Option Instr :=
  match decodeBytes [hiByte (tableWord nbits w), loByte (tableWord nbits w)] with
  | .instr i _ => some i
  | .unrecognized _ _ => none
  | .truncated => none

end Sys2Proof
end

