-- ==== Sys2Proof/Machine/State.lean ====
section
/-! DEFINITION. The state of the core as plain data (spec file 10_state.md), its fault kinds, the reasons a step can
stop, and the state after Reset. -/

namespace Sys2Proof.Machine

/-- The five fault kinds with their payloads (rule R165). A fault is part of the machine: `raise` latches it in
`status` (rule R166). -/
inductive FaultKind where
  /-- The fetched word matches no instruction (rule R168). -/
  | decodeUnrecognized (word : Word)
  /-- An access above 0x0FFF; carries the lowest out-of-range address (rule R169). -/
  | memoryOutOfBounds (addr : Word)
  /-- Call with sixteen live entries (rule R170). -/
  | stackOverflow
  /-- Ret with none (rule R171). -/
  | stackUnderflow
  /-- Reset with a ROM of more than 3584 bytes (rule R172). -/
  | romTooLarge
  deriving DecidableEq, Repr

/-- The fault latch `STATUS` (rule R21). -/
inductive Status where
  | running
  | faulted (kind : FaultKind)
  deriving DecidableEq, Repr

/-- `FB`, addressed `[row][column]`, origin top-left; `true` is a set pixel (rule R18). -/
abbrev Framebuffer := Vector (Vector Bool 64) 32

/-- `MEM` (rule R19), as the cells that differ from the image of a Reset with an empty ROM (`Memory.blank`), by rising
address. `Memory.wf` (Machine/Ops.lean) is the canonical form. -/
abbrev Memory := List Host.Cell

/-- Everything the spec gives the machine (rules R10 to R21; rule R24: "There is no other state"), and one field of
the model's own, `rndDraws`. -/
structure State where
  /-- V0 to VF; VF is also the flag register (rules R10, R11). -/
  v : Vector Byte 16
  /-- The address register I (rule R12). -/
  i : Word
  /-- The program counter (rule R13). -/
  pc : Word
  /-- SP, the number of live stack entries, 0 to 16 (rule R14). -/
  sp : Fin 17
  /-- STACK[0] to STACK[15], the dead entries included (rule R15). -/
  stack : Vector Word 16
  /-- DT, the delay timer (rule R16). -/
  dt : Byte
  /-- ST, the sound timer (rule R17). -/
  st : Byte
  /-- FB, the pixel buffer (rule R18). -/
  fb : Framebuffer
  /-- MEM, the 4096 bytes (rule R19). -/
  mem : Memory
  /-- KEY, the key latch, written by the host only (rule R20). -/
  key : Option Nibble
  /-- STATUS, the fault latch (rule R21). -/
  status : Status
  /-- The model's own: how many random bytes have been drawn, so that each Rnd gets a free value of its own
  (rules R22, R81; log 3). -/
  rndDraws : Nat
  deriving DecidableEq, Repr

/-- The reasons a step can stop with a fault: NONE. Every fault of the spec is a next state whose `status` latch is
set (rules R80, R166), and memory has no address that no rule covers; nobody raises a `Fault` (log 5). -/
inductive Fault where
  deriving DecidableEq, Repr

/-- The reasons a step can be refused. -/
inductive Refusal where
  /-- The instruction has no meaning yet. Raised by `exec`'s rejected arms, of which there are none. Safe. -/
  | notModelled (mnemonic : String)
  deriving DecidableEq, Repr

/-- The machine after Reset with an empty ROM (rules R25, R190, R191): everything zero, pc at 0x0200, the font loaded
(it is part of what an unlisted address reads as). A Reset with a ROM is `State.boot` (Machine/Events.lean).
`rndDraws` is the model's own (log 3). -/
def State.reset : State where
  v := Vector.replicate 16 0x00
  i := 0x0000
  pc := 0x0200
  sp := 0
  stack := Vector.replicate 16 0x0000
  dt := 0x00
  st := 0x00
  fb := Vector.replicate 32 (Vector.replicate 64 false)
  mem := []
  key := none
  status := .running
  rndDraws := 0

end Sys2Proof.Machine
end

