-- ==== Sys2Proof/Machine/Ops.lean ====
section
/-! DEFINITION. The named operations over memory, registers, stack and pixels, and `raise`: rule R7's primitives. -/

namespace Sys2Proof.Machine

/-! ### Memory (rules R35 to R41, R54) -/

/-- `FONT_BASE` as an address (rule R5; log 1). -/
def fontBase : Nat := Config.fontBase.val

/-- Byte `j` of `FONT_TABLE`, 0 ≤ j < 80 (rule R43; log 2). -/
def fontByte (j : Nat) : Byte := if h : j < 80 then Config.fontTable[j] else Config.memFill

/-- What an address that memory does not list reads as: the image of a Reset with an empty ROM, `FONT_TABLE` at
`FONT_BASE` and `MEM_FILL` elsewhere (rules R25, R36, R191). The font lies wholly below 0x200. -/
def Memory.blank (a : Nat) : Byte :=
  if Config.progBase ≤ a then Config.memFill
  else if fontBase ≤ a ∧ a < fontBase + Config.fontSize then fontByte (a - fontBase)
  else Config.memFill

/-- `MEM[a]`. -/
def Memory.read : Memory → Nat → Byte
  | [], a => Memory.blank a
  | (k, b) :: m, a => if a = k then b else Memory.read m a

/-- Put the cell `(a, b)` in its place, over any cell at `a`. -/
def Memory.insertCell : Memory → Nat → Byte → Memory
  | [], a, b => [(a, b)]
  | (k, c) :: m, a, b =>
    if a < k then (a, b) :: (k, c) :: m
    else if a = k then (a, b) :: m
    else (k, c) :: Memory.insertCell m a b

/-- `MEM[a] <- b`: a byte that `a` would read as anyway is not listed. -/
def Memory.write (m : Memory) (a : Nat) (b : Byte) : Memory :=
  if b = Memory.blank a then m.filter (fun c => c.1 ≠ a) else m.insertCell a b

/-- The canonical form: addresses strictly rising, all in range, no cell equal to what an unlisted one reads as. -/
abbrev Memory.wf (m : Memory) : Prop :=
  m.Pairwise (fun c d => c.1 < d.1) ∧ ∀ c ∈ m, c.1 < Config.memSize ∧ c.2 ≠ Memory.blank c.1

/-- The `n` bytes from `base` up. -/
def Memory.bytesFrom (m : Memory) (base : Nat) : Nat → List Byte
  | 0 => []
  | n + 1 => m.read base :: Memory.bytesFrom m (base + 1) n

/-- Store a byte list from `base` up, in ascending address order (rules R45, R54). -/
def Memory.writeBytes (m : Memory) (base : Nat) : List Byte → Memory
  | [] => m
  | b :: bs => Memory.writeBytes (m.write base b) (base + 1) bs

/-- The bounds check of `count` bytes from `base` (rules R37 to R41, R54): effective addresses are naturals, never
wrapped, and the reported address is the lowest out-of-range one, `max(base, 0x1000)` (rule R169). -/
def rangeFault (base count : Nat) : Option FaultKind :=
  if 0 < count ∧ base + count - 1 > 0x0FFF then
    some (.memoryOutOfBounds (BitVec.ofNat 16 (max base 0x1000)))
  else none

/-- Read `n` bytes, all of them checked first (rules R38, R54). -/
def Memory.readRange (m : Memory) (base n : Nat) : Except FaultKind (List Byte) :=
  match rangeFault base n with
  | some f => .error f
  | none => .ok (m.bytesFrom base n)

/-- Write a byte list, every address checked before the first is written (rules R39, R54). -/
def Memory.writeRange (m : Memory) (base : Nat) (bs : List Byte) : Except FaultKind Memory :=
  match rangeFault base bs.length with
  | some f => .error f
  | none => .ok (m.writeBytes base bs)

/-- `MEM[a] ++ MEM[a + 1]`, the big-endian word at `a` (rules R40, R45). -/
def Memory.word (m : Memory) (a : Nat) : Word := wordOfBytes (m.read a) (m.read (a + 1))

/-- `MemRead(a, 2)` (rule R40). -/
def Memory.readWord (m : Memory) (a : Nat) : Except FaultKind Word :=
  match rangeFault a 2 with
  | some f => .error f
  | none => .ok (m.word a)

/-! ### Registers -/

/-- `V[x]` (rules R7, R10). -/
def State.reg (s : State) (x : RegIdx) : Byte := s.v[x.toNat]'x.isLt

/-- `V[x] <- b`. -/
def State.setReg (s : State) (x : RegIdx) (b : Byte) : State := { s with v := s.v.set x.toNat b x.isLt }

/-- The flag register's index (rule R11). -/
def flagReg : RegIdx := 0xF#4

/-- `I <- w`. -/
def State.setI (s : State) (w : Word) : State := { s with i := w }

/-- `pc <- w`. -/
def State.setPc (s : State) (w : Word) : State := { s with pc := w }

/-- `skip`, and the fetch's advance: `pc <- (pc + 2) mod 2^16` (rules R7, R76, R79). -/
def State.advance (s : State) : State := { s with pc := s.pc + 2#16 }

/-- `DT <- b`. -/
def State.setDt (s : State) (b : Byte) : State := { s with dt := b }

/-- `ST <- b`. -/
def State.setSt (s : State) (b : Byte) : State := { s with st := b }

/-- `MEM <- m`. -/
def State.setMem (s : State) (m : Memory) : State := { s with mem := m }

/-- `FB <- fb`. -/
def State.setFb (s : State) (fb : Framebuffer) : State := { s with fb := fb }

/-- One random byte has been drawn (log 3). -/
def State.drawn (s : State) : State := { s with rndDraws := s.rndDraws + 1 }

/-- Load a byte list into V[k], V[k+1], ... (rule R131's loop). -/
def State.loadRegs (s : State) (k : Nat) : List Byte → State
  | [] => s
  | b :: bs => State.loadRegs (s.setReg (BitVec.ofNat 4 k) b) (k + 1) bs

/-! ### The call stack (rules R14, R15, R90, R92) -/

/-- Push pc: check SP = 16, SP + 1, then store into the entry that became the top. -/
def State.pushReturn (s : State) : Except FaultKind State :=
  if h : s.sp.val < 16 then
    .ok { s with sp := ⟨s.sp.val + 1, by omega⟩, stack := s.stack.set s.sp.val s.pc h }
  else .error .stackOverflow

/-- Pop into pc: check SP = 0, load the top, SP − 1; the entry keeps its bits. -/
def State.popReturn (s : State) : Except FaultKind State :=
  if h : s.sp.val = 0 then .error .stackUnderflow
  else .ok { s with pc := s.stack[s.sp.val - 1]'(by omega), sp := ⟨s.sp.val - 1, by omega⟩ }

/-! ### Pixels (rule R18) -/

/-- `FB[r][c]`; no pixel outside the grid is set. -/
def Framebuffer.pixel (fb : Framebuffer) (r c : Nat) : Bool :=
  if h : r < 32 ∧ c < 64 then (fb[r]'h.1)[c]'h.2 else false

/-- `FB[r][c] <- b`. -/
def Framebuffer.setPixel (fb : Framebuffer) (r c : Nat) (b : Bool) : Framebuffer :=
  if h : r < 32 ∧ c < 64 then fb.set r ((fb[r]'h.1).set c b h.2) h.1 else fb

/-- Every pixel clear. -/
def Framebuffer.clear : Framebuffer := Vector.replicate 32 (Vector.replicate 64 false)

/-! ### Faults (rules R165 to R176) -/

/-- `raise <Fault>(info)`: `STATUS <- FAULTED(code, info)` and nothing else (rule R166). The one operation by which
every fault of the spec is taken. There is no return from a fault but Reset (rule R175; `applyEvent`). -/
def State.raise (s : State) (f : FaultKind) : State := { s with status := .faulted f }

/-- End an instruction: its next state, or the fault it met before it wrote anything (rules R54, R78, R166). -/
def State.orRaise (s : State) : Except FaultKind State → Host.Outcome State Fault Refusal
  | .ok t => .next t
  | .error f => .next (s.raise f)

/-! ### Fetch (rule R76) -/

/-- "read+advance": the word at pc and the state with pc advanced; on a fault pc is not advanced. -/
def State.fetch (s : State) : Except FaultKind (Word × State) :=
  match s.mem.readWord s.pc.toNat with
  | .error f => .error f
  | .ok w => .ok (w, s.advance)

/-- The instruction the next Step executes: none when the core is FAULTED, when the fetch faults and when the word is
unrecognized (rules R75 to R77, R80). -/
def State.pending (s : State) : Option Instr :=
  match s.status with
  | .faulted _ => none
  | .running =>
    match s.fetch with
    | .error _ => none
    | .ok (w, _) =>
      match decode w with
      | .instr i => some i
      | .unrecognized _ => none

end Sys2Proof.Machine
end

