-- ==== Sys2Proof/Machine/Flags.lean ====
section
/-! DEFINITION. Results and flags of the ALU and shift unit (rules R105, R112 to R120): exact on naturals, narrowed at
the end; VF is written last (rule R114). -/

namespace Sys2Proof.Machine

/-- A flag as VF holds it: 0x00 or 0x01 (rule R11). -/
def flagByte (c : Bool) : Byte := if c then 0x01 else 0x00

/-- `VF <- flag`. -/
def State.setFlag (s : State) (c : Bool) : State := s.setReg flagReg (flagByte c)

/-- Write the result to Vx, then the flag to VF, in this order: with x = 0xF the flag wins (rule R114). -/
def State.setRegThenFlag (s : State) (x : RegIdx) (r : Byte) (c : Bool) : State := (s.setReg x r).setFlag c

/-- `(a + b) mod 256` (rules R105, R120). -/
def addByte (a b : Byte) : Byte := BitVec.ofNat 8 ((a.toNat + b.toNat) % 256)

/-- Carry: 1 exactly when a + b > 255 (rule R112). -/
def carryOut (a b : Byte) : Bool := decide (a.toNat + b.toNat > 255)

/-- `(a − b) mod 256`: a − b when a ≥ b, 256 + a − b when a < b (rule R120). -/
def subByte (a b : Byte) : Byte :=
  BitVec.ofNat 8 (if a.toNat ≥ b.toNat then a.toNat - b.toNat else 256 + a.toNat - b.toNat)

/-- Not-borrow: 1 exactly when a ≥ b, equality included (rules R113, R120; decision D21). -/
def notBorrow (a b : Byte) : Bool := decide (a.toNat ≥ b.toNat)

/-- `a div 2` (rules R116, R120). -/
def shrByte (a : Byte) : Byte := BitVec.ofNat 8 (a.toNat / 2)

/-- The bit shifted out at the low end, `a[0]` (rule R116). -/
def shrOut (a : Byte) : Bool := a.getLsbD 0

/-- `(2·a) mod 256` (rules R118, R120). -/
def shlByte (a : Byte) : Byte := BitVec.ofNat 8 (2 * a.toNat % 256)

/-- The bit shifted out at the high end, `a[7]` (rule R118). -/
def shlOut (a : Byte) : Bool := a.getLsbD 7

/-- `(i + v) mod 2^16` (rules R120, R127; decision D17). -/
def addIndex (i : Word) (v : Byte) : Word := BitVec.ofNat 16 ((i.toNat + v.toNat) % 65536)

end Sys2Proof.Machine
end

