-- ==== Sys2Proof/Machine/Operands.lean ====
section
/-! DEFINITION. Operand forms: what an instruction computes from its fields before it writes (rules R41, R58, R115,
R128, R129, R141, R156). -/

namespace Sys2Proof.Machine

/-- `zext_16(nnn)` (rule R58). -/
def zextAddr (nnn : Addr12) : Word := nnn.setWidth 16

/-- `zext_16(V[x])`. -/
def zextByte (b : Byte) : Word := b.setWidth 16

/-- `zext_8(k)` (rule R156). -/
def zextKey (k : Nibble) : Byte := k.setWidth 8

/-- The base of an indirect access, I as a natural number (rules R41, R125). -/
def State.base (s : State) : Nat := s.i.toNat

/-- The shifted operand: Vx, or Vy in the other dialect (rule R115). -/
def shiftSource (usesVy : Bool) (x y : RegIdx) (s : State) : Byte := if usesVy then s.reg y else s.reg x

/-- The digit a glyph is chosen by, the low nibble of Vx (rule R128, decision D18). -/
def glyphDigit (b : Byte) : Nat := b.toNat % 16

/-- The address of glyph `d` (rules R36, R128). -/
def glyphAddr (d : Nat) : Word := BitVec.ofNat 16 (fontBase + Config.glyphBytes * d)

/-- The three decimal digits of a byte, hundreds first, each a byte of value 0 to 9 (rule R129). -/
def decimalDigits (b : Byte) : List Byte :=
  [BitVec.ofNat 8 (b.toNat / 100), BitVec.ofNat 8 (b.toNat / 10 % 10), BitVec.ofNat 8 (b.toNat % 10)]

/-- V0 to Vx (rule R130). -/
def State.regsUpTo (s : State) (x : RegIdx) : List Byte := s.v.toList.take (x.toNat + 1)

/-- "Key Vx is pressed": an 8-bit comparison with the latch (rule R156). -/
def State.keyPressed (s : State) (b : Byte) : Bool :=
  match s.key with
  | none => false
  | some k => decide (zextKey k = b)

/-- The anchor column, Vx mod 64 (rule R141). -/
def anchorColumn (b : Byte) : Nat := b.toNat % Config.fbWidth

/-- The anchor row, Vy mod 32 (rule R141). -/
def anchorRow (b : Byte) : Nat := b.toNat % Config.fbHeight

/-- The 8-bit result and the random byte meet in a mask (rule R119). -/
def masked (rnd kk : Byte) : Byte := rnd &&& kk

/-- Take a skip: pc is A + 2 already and becomes A + 4 when the condition holds (rules R7, R79). -/
def State.skipIf (s : State) (c : Bool) : State := if c then s.advance else s

end Sys2Proof.Machine
end

