-- ==== Sys2Proof/Machine/Display.lean ====
section
/-! DEFINITION. Clear and the XOR-blit with collision detection (spec file 44_display.md). -/

namespace Sys2Proof.Machine

/-- What a draw carries along: the pixel buffer and whether a pixel has been hit (rule R142). -/
structure Canvas where
  fb : Framebuffer
  hit : Bool
  deriving DecidableEq, Repr

/-- Draw one sprite bit at row `py`, column `px`: wrapped or clipped at the edge, then XOR; a 1 bit on a set pixel is
a hit (rule R142's loop body). -/
def Canvas.plot (wrap : Bool) (cv : Canvas) (py px : Nat) (bit : Bool) : Canvas :=
  let c := if wrap then px % Config.fbWidth else px
  let r := if wrap then py % Config.fbHeight else py
  if c > 63 ∨ r > 31 then cv
  else if bit then
    { fb := cv.fb.setPixel r c (!cv.fb.pixel r c), hit := cv.hit || cv.fb.pixel r c }
  else cv

/-- Draw the sprite byte `b` at row `py`, most significant bit leftmost (rule R141): columns offset `c`, `c + 1`, ... -/
def Canvas.drawByte (wrap : Bool) (cv : Canvas) (py x0 : Nat) (b : Byte) : List Nat → Canvas
  | [] => cv
  | c :: cs => Canvas.drawByte wrap (cv.plot wrap py (x0 + c) (b.getLsbD (7 - c))) py x0 b cs

/-- Draw the rows of a sprite, top to bottom from row `py` (rule R142). -/
def Canvas.drawSprite (wrap : Bool) (cv : Canvas) (py x0 : Nat) : List Byte → Canvas
  | [] => cv
  | b :: bs => Canvas.drawSprite wrap (cv.drawByte wrap py x0 b (List.range 8)) (py + 1) x0 bs

/-- The draw under either edge convention (rule R142): coordinates are read before VF is written, all `n` bytes are
checked and read, VF is written last. -/
def drawWith (wrap : Bool) (x y : RegIdx) (n : Nibble) (s : State) : Host.Outcome State Fault Refusal :=
  s.orRaise ((s.mem.readRange s.base n.toNat).map (fun sprite =>
    let cv := Canvas.drawSprite wrap ⟨s.fb, false⟩ (anchorRow (s.reg y)) (anchorColumn (s.reg x)) sprite
    (s.setFb cv.fb).setFlag cv.hit))

/-- Cls, `00E0` (rule R140). -/
def execCls (s : State) : Host.Outcome State Fault Refusal := .next (s.setFb Framebuffer.clear)

/-- Drw, `Dxyn` (rules R141, R142): clips at the right and bottom edges on this hardware. -/
def execDrw (x y : RegIdx) (n : Nibble) (s : State) : Host.Outcome State Fault Refusal :=
  drawWith Config.drawWrap x y n s

end Sys2Proof.Machine
end

