-- ==== Sys2Proof/Machine/FlowControl.lean ====
section
/-! DEFINITION. Control transfer (spec file 41_flow_control.md). pc holds A + 2 when an instruction executes. -/

namespace Sys2Proof.Machine

/-- Ret, `00EE` (rules R90, R171): pop the top of the stack into pc, or raise StackUnderflow. -/
def execRet (s : State) : Host.Outcome State Fault Refusal := s.orRaise s.popReturn

/-- Jmp, `1nnn` (rules R91, R98): no check at the transfer. -/
def execJmp (nnn : Addr12) (s : State) : Host.Outcome State Fault Refusal := .next (s.setPc (zextAddr nnn))

/-- Call, `2nnn` (rules R92, R170): push A + 2 and jump, or raise StackOverflow. -/
def execCall (nnn : Addr12) (s : State) : Host.Outcome State Fault Refusal :=
  s.orRaise (s.pushReturn.map (fun t => t.setPc (zextAddr nnn)))

/-- JmpV0, `Bnnn` (rule R93): nnn + V0 as a 16-bit sum. -/
def execJmpV0 (nnn : Addr12) (s : State) : Host.Outcome State Fault Refusal :=
  .next (s.setPc (zextAddr nnn + zextByte (s.reg 0x0#4)))

/-- SeVx, `3xkk` (rule R94). -/
def execSeVx (x : RegIdx) (kk : Byte) (s : State) : Host.Outcome State Fault Refusal :=
  .next (s.skipIf (decide (s.reg x = kk)))

/-- SneVx, `4xkk` (rule R95). -/
def execSneVx (x : RegIdx) (kk : Byte) (s : State) : Host.Outcome State Fault Refusal :=
  .next (s.skipIf (decide (s.reg x ≠ kk)))

/-- SeVxVy, `5xy0` (rule R96). -/
def execSeVxVy (x y : RegIdx) (s : State) : Host.Outcome State Fault Refusal :=
  .next (s.skipIf (decide (s.reg x = s.reg y)))

/-- SneVxVy, `9xy0` (rule R97). -/
def execSneVxVy (x y : RegIdx) (s : State) : Host.Outcome State Fault Refusal :=
  .next (s.skipIf (decide (s.reg x ≠ s.reg y)))

end Sys2Proof.Machine
end

