-- ==== Sys2Proof/Machine/IndexMemory.lean ====
section
/-! DEFINITION. The address register and the memory instructions (spec file 43_index_memory.md). No access changes I
(rule R125); every address is checked before anything is written (rule R54). -/

namespace Sys2Proof.Machine

/-- LdI, `Annn` (rule R126). -/
def execLdI (nnn : Addr12) (s : State) : Host.Outcome State Fault Refusal := .next (s.setI (zextAddr nnn))

/-- AddIVx, `Fx1E` (rule R127): wraps modulo 2^16 (decision D17), no flag, no fault. -/
def execAddIVx (x : RegIdx) (s : State) : Host.Outcome State Fault Refusal :=
  .next (s.setI (addIndex s.i (s.reg x)))

/-- LdFVx, `Fx29` (rule R128): computes an address, reads no memory. -/
def execLdFVx (x : RegIdx) (s : State) : Host.Outcome State Fault Refusal :=
  .next (s.setI (glyphAddr (glyphDigit (s.reg x))))

/-- LdBVx, `Fx33` (rule R129). -/
def execLdBVx (x : RegIdx) (s : State) : Host.Outcome State Fault Refusal :=
  s.orRaise ((s.mem.writeRange s.base (decimalDigits (s.reg x))).map s.setMem)

/-- StRegs, `Fx55` (rule R130). -/
def execStRegs (x : RegIdx) (s : State) : Host.Outcome State Fault Refusal :=
  s.orRaise ((s.mem.writeRange s.base (s.regsUpTo x)).map s.setMem)

/-- LdRegs, `Fx65` (rule R131). -/
def execLdRegs (x : RegIdx) (s : State) : Host.Outcome State Fault Refusal :=
  s.orRaise ((s.mem.readRange s.base (x.toNat + 1)).map (s.loadRegs 0))

end Sys2Proof.Machine
end

