-- ==== Sys2Proof/Machine/LoadAlu.lean ====
section
/-! DEFINITION. Register loads, ALU, shifts, random (spec file 42_load_alu.md). None can fault (rule R105). -/

namespace Sys2Proof.Machine

/-- LdVx, `6xkk` (rule R106). -/
def execLdVx (x : RegIdx) (kk : Byte) (s : State) : Host.Outcome State Fault Refusal := .next (s.setReg x kk)

/-- AddVx, `7xkk` (rule R107): the carry is dropped, VF is left alone (decision D20). -/
def execAddVx (x : RegIdx) (kk : Byte) (s : State) : Host.Outcome State Fault Refusal :=
  .next (s.setReg x (addByte (s.reg x) kk))

/-- LdVxVy, `8xy0` (rule R108). -/
def execLdVxVy (x y : RegIdx) (s : State) : Host.Outcome State Fault Refusal := .next (s.setReg x (s.reg y))

/-- Or, `8xy1` (rule R109): VF is not written. -/
def execOr (x y : RegIdx) (s : State) : Host.Outcome State Fault Refusal :=
  .next (s.setReg x (s.reg x ||| s.reg y))

/-- And, `8xy2` (rule R110): VF is not written. -/
def execAnd (x y : RegIdx) (s : State) : Host.Outcome State Fault Refusal :=
  .next (s.setReg x (s.reg x &&& s.reg y))

/-- Xor, `8xy3` (rule R111): VF is not written. -/
def execXor (x y : RegIdx) (s : State) : Host.Outcome State Fault Refusal :=
  .next (s.setReg x (s.reg x ^^^ s.reg y))

/-- Add, `8xy4` (rules R112, R114): VF = carry, written last. -/
def execAdd (x y : RegIdx) (s : State) : Host.Outcome State Fault Refusal :=
  .next (s.setRegThenFlag x (addByte (s.reg x) (s.reg y)) (carryOut (s.reg x) (s.reg y)))

/-- Sub, `8xy5` (rules R113, R114): VF = not-borrow of Vx − Vy, written last. -/
def execSub (x y : RegIdx) (s : State) : Host.Outcome State Fault Refusal :=
  .next (s.setRegThenFlag x (subByte (s.reg x) (s.reg y)) (notBorrow (s.reg x) (s.reg y)))

/-- Subn, `8xy7` (rules R114, R117): VF = not-borrow of Vy − Vx, written last. -/
def execSubn (x y : RegIdx) (s : State) : Host.Outcome State Fault Refusal :=
  .next (s.setRegThenFlag x (subByte (s.reg y) (s.reg x)) (notBorrow (s.reg y) (s.reg x)))

/-- The right shift under either dialect (rules R115, R116). -/
def shrWith (usesVy : Bool) (x y : RegIdx) (s : State) : Host.Outcome State Fault Refusal :=
  .next (s.setRegThenFlag x (shrByte (shiftSource usesVy x y s)) (shrOut (shiftSource usesVy x y s)))

/-- The left shift under either dialect (rules R115, R118). -/
def shlWith (usesVy : Bool) (x y : RegIdx) (s : State) : Host.Outcome State Fault Refusal :=
  .next (s.setRegThenFlag x (shlByte (shiftSource usesVy x y s)) (shlOut (shiftSource usesVy x y s)))

/-- Shr, `8xy6` (rules R114 to R116): shifts Vx in place on this hardware. -/
def execShr (x y : RegIdx) (s : State) : Host.Outcome State Fault Refusal := shrWith Config.shiftUsesVy x y s

/-- Shl, `8xyE` (rules R114, R115, R118): shifts Vx in place on this hardware. -/
def execShl (x y : RegIdx) (s : State) : Host.Outcome State Fault Refusal := shlWith Config.shiftUsesVy x y s

/-- Rnd with the Step's random byte as an argument, for a caller that substitutes a source of its own (rules R81,
R119); the draw is counted. -/
def rndWith (rnd : Byte) (x : RegIdx) (kk : Byte) (s : State) : Host.Outcome State Fault Refusal :=
  .next (s.drawn.setReg x (masked rnd kk))

/-- Rnd, `Cxkk` (rule R119): the byte is a free value, a new one for every executed Rnd (log 3). -/
def execRnd (x : RegIdx) (kk : Byte) (s : State) : Host.Outcome State Fault Refusal :=
  rndWith (Config.rndByte s.rndDraws) x kk s

end Sys2Proof.Machine
end

