-- ==== Sys2Proof/Machine/TimerKey.lean ====
section
/-! DEFINITION. Timer and key instructions (spec file 45_timer_key.md). -/

namespace Sys2Proof.Machine

/-- Skp, `Ex9E` (rules R154, R156). -/
def execSkp (x : RegIdx) (s : State) : Host.Outcome State Fault Refusal :=
  .next (s.skipIf (s.keyPressed (s.reg x)))

/-- Sknp, `ExA1` (rules R155, R156): the exact complement of Skp. -/
def execSknp (x : RegIdx) (s : State) : Host.Outcome State Fault Refusal :=
  .next (s.skipIf (!s.keyPressed (s.reg x)))

/-- LdVxDt, `Fx07` (rule R150). -/
def execLdVxDt (x : RegIdx) (s : State) : Host.Outcome State Fault Refusal := .next (s.setReg x s.dt)

/-- LdVxKey, `Fx0A` (rule R151): the key in the latch, or pc back to A so that the same word is fetched again. pc
holds A + 2 here, so A is pc − 2 modulo 2^16. The `awaiting_key` output is in Machine/Outputs.lean. -/
def execLdVxKey (x : RegIdx) (s : State) : Host.Outcome State Fault Refusal :=
  match s.key with
  | some k => .next (s.setReg x (zextKey k))
  | none => .next (s.setPc (s.pc - 2#16))

/-- LdDtVx, `Fx15` (rule R152). -/
def execLdDtVx (x : RegIdx) (s : State) : Host.Outcome State Fault Refusal := .next (s.setDt (s.reg x))

/-- LdStVx, `Fx18` (rule R153). -/
def execLdStVx (x : RegIdx) (s : State) : Host.Outcome State Fault Refusal := .next (s.setSt (s.reg x))

end Sys2Proof.Machine
end

