-- ==== Sys2Proof/Machine/Dispatch.lean ====
section
/-! DEFINITION. The execute phase (rule R78): one arm per instruction, no default arm. -/

namespace Sys2Proof.Machine

/-- `execute(instr)` (rule R78), on the state the fetch phase leaves: pc holds A + 2. -/
def exec (i : Instr) (s : State) : Host.Outcome State Fault Refusal :=
  match i with
  | .cls => Sys2Proof.Machine.execCls s
  | .ret => Sys2Proof.Machine.execRet s
  | .jmp nnn => Sys2Proof.Machine.execJmp nnn s
  | .call nnn => Sys2Proof.Machine.execCall nnn s
  | .seVx vx value => Sys2Proof.Machine.execSeVx vx value s
  | .sneVx vx value => Sys2Proof.Machine.execSneVx vx value s
  | .seVxVy vx vy => Sys2Proof.Machine.execSeVxVy vx vy s
  | .ldVx vx value => Sys2Proof.Machine.execLdVx vx value s
  | .addVx vx value => Sys2Proof.Machine.execAddVx vx value s
  | .ldVxVy vx vy => Sys2Proof.Machine.execLdVxVy vx vy s
  | .or vx vy => Sys2Proof.Machine.execOr vx vy s
  | .and vx vy => Sys2Proof.Machine.execAnd vx vy s
  | .xor vx vy => Sys2Proof.Machine.execXor vx vy s
  | .add vx vy => Sys2Proof.Machine.execAdd vx vy s
  | .sub vx vy => Sys2Proof.Machine.execSub vx vy s
  | .shr vx vy => Sys2Proof.Machine.execShr vx vy s
  | .subn vx vy => Sys2Proof.Machine.execSubn vx vy s
  | .shl vx vy => Sys2Proof.Machine.execShl vx vy s
  | .sneVxVy vx vy => Sys2Proof.Machine.execSneVxVy vx vy s
  | .ldI nnn => Sys2Proof.Machine.execLdI nnn s
  | .jmpV0 nnn => Sys2Proof.Machine.execJmpV0 nnn s
  | .rnd vx value => Sys2Proof.Machine.execRnd vx value s
  | .drw vx vy n => Sys2Proof.Machine.execDrw vx vy n s
  | .skp vx => Sys2Proof.Machine.execSkp vx s
  | .sknp vx => Sys2Proof.Machine.execSknp vx s
  | .ldVxDt vx => Sys2Proof.Machine.execLdVxDt vx s
  | .ldVxKey vx => Sys2Proof.Machine.execLdVxKey vx s
  | .ldDtVx vx => Sys2Proof.Machine.execLdDtVx vx s
  | .ldStVx vx => Sys2Proof.Machine.execLdStVx vx s
  | .addIVx vx => Sys2Proof.Machine.execAddIVx vx s
  | .ldFVx vx => Sys2Proof.Machine.execLdFVx vx s
  | .ldBVx vx => Sys2Proof.Machine.execLdBVx vx s
  | .stRegs vx => Sys2Proof.Machine.execStRegs vx s
  | .ldRegs vx => Sys2Proof.Machine.execLdRegs vx s

end Sys2Proof.Machine
end

