-- ==== Sys2Proof/Machine/Step.lean ====
section
/-! DEFINITION. One Step: fetch, decode, execute (spec file 40_step_cycle.md). -/

namespace Sys2Proof.Machine

/-- `Step()` (rules R75 to R80): nothing when FAULTED; a fetch fault leaves pc at A; an unrecognized word and the
instruction's own fault leave pc at A + 2. -/
def step (s : State) : Host.Outcome State Fault Refusal :=
  match s.status with
  | .faulted _ => .next s
  | .running =>
    match s.fetch with
    | .error f => .next (s.raise f)
    | .ok (w, t) =>
      match decode w with
      | .unrecognized u => .next (t.raise (.decodeUnrecognized u))
      | .instr i => exec i t

/-- The address the fetch reads: pc, or 0x200 where pc is one no fetch succeeds at (rule R40). -/
def State.fetchAddress (s : State) : Word := if s.pc.toNat ≤ 0x0FFE then s.pc else 0x0200#16

/-- `s` with the instruction whose bits are `w` (as spec/opcode_table.json numbers them) stored where the next Step
fetches, big-endian (rule R40). A fetch needs a pc of at most 0x0FFE and a RUNNING core: both are set; nothing else is
changed (log 6). -/
def State.withFetchWord (s : State) (nbits w : Nat) : State :=
  { s with
    pc := s.fetchAddress
    status := .running
    mem := s.mem.writeBytes s.fetchAddress.toNat [hiByte (tableWord nbits w), loByte (tableWord nbits w)] }

end Sys2Proof.Machine
end

