-- ==== Sys2Proof/Assembly.lean ====
section
/-! DEFINITION. The textual form of instructions and data that the spec's listings use (rules R64, R65; decision D29).
Numerals are written in hexadecimal. Nothing the machine does depends on it. -/

namespace Sys2Proof

/-- The hexadecimal digit of a nibble. -/
def hexDigit (d : Nat) : Char :=
  ['0', '1', '2', '3', '4', '5', '6', '7', '8', '9', 'A', 'B', 'C', 'D', 'E', 'F'].getD (d % 16) '0'

/-- The low `k` hexadecimal digits of a number, most significant first. -/
def hexDigits : Nat → Nat → List Char
  | 0, _ => []
  | k + 1, n => hexDigits k (n / 16) ++ [hexDigit n]

/-- A numeral of `k` hexadecimal digits. -/
def numeral (k n : Nat) : String := "0x" ++ String.ofList (hexDigits k n)

/-- `V0` to `VF`. -/
def regName (x : RegIdx) : String := "V" ++ String.ofList (hexDigits 1 x.toNat)

/-- A mnemonic and its operands. -/
def asmLine (mnemonic : String) (operands : List String) : String :=
  match operands with
  | [] => mnemonic
  | _ :: _ => mnemonic ++ " " ++ ", ".intercalate operands

/-- One operand of a shift: the `vy` field is written only when it is not 0. -/
def shiftOperands (x y : RegIdx) : List String := if y = 0x0#4 then [regName x] else [regName x, regName y]

/-- The textual form of an instruction (rule R64's table). -/
def Instr.asm : Instr → String
  | .cls => asmLine "CLS" []
  | .ret => asmLine "RET" []
  | .jmp nnn => asmLine "JMP" [numeral 3 nnn.toNat]
  | .call nnn => asmLine "CALL" [numeral 3 nnn.toNat]
  | .seVx x kk => asmLine "SE" [regName x, numeral 2 kk.toNat]
  | .sneVx x kk => asmLine "SNE" [regName x, numeral 2 kk.toNat]
  | .seVxVy x y => asmLine "SE" [regName x, regName y]
  | .ldVx x kk => asmLine "LD" [regName x, numeral 2 kk.toNat]
  | .addVx x kk => asmLine "ADD" [regName x, numeral 2 kk.toNat]
  | .ldVxVy x y => asmLine "LD" [regName x, regName y]
  | .or x y => asmLine "OR" [regName x, regName y]
  | .and x y => asmLine "AND" [regName x, regName y]
  | .xor x y => asmLine "XOR" [regName x, regName y]
  | .add x y => asmLine "ADD" [regName x, regName y]
  | .sub x y => asmLine "SUB" [regName x, regName y]
  | .shr x y => asmLine "SHR" (shiftOperands x y)
  | .subn x y => asmLine "SUBN" [regName x, regName y]
  | .shl x y => asmLine "SHL" (shiftOperands x y)
  | .sneVxVy x y => asmLine "SNE" [regName x, regName y]
  | .ldI nnn => asmLine "LD" ["I", numeral 3 nnn.toNat]
  | .jmpV0 nnn => asmLine "JMP" ["V0", numeral 3 nnn.toNat]
  | .rnd x kk => asmLine "RND" [regName x, numeral 2 kk.toNat]
  | .drw x y n => asmLine "DRW" [regName x, regName y, numeral 1 n.toNat]
  | .skp x => asmLine "SKP" [regName x]
  | .sknp x => asmLine "SKNP" [regName x]
  | .ldVxDt x => asmLine "LD" [regName x, "DT"]
  | .ldVxKey x => asmLine "LD" [regName x, "K"]
  | .ldDtVx x => asmLine "LD" ["DT", regName x]
  | .ldStVx x => asmLine "LD" ["ST", regName x]
  | .addIVx x => asmLine "ADD" ["I", regName x]
  | .ldFVx x => asmLine "LD" ["F", regName x]
  | .ldBVx x => asmLine "LD" ["B", regName x]
  | .stRegs x => asmLine "LD" ["[I]", regName x]
  | .ldRegs x => asmLine "LD" [regName x, "[I]"]

/-- The textual form of any word: an unrecognized one is a `DW` (rule R64). -/
def asmOfWord (w : Word) : String :=
  match decode w with
  | .instr i => i.asm
  | .unrecognized u => asmLine "DW" [numeral 4 u.toNat]

/-- Data bytes are a `DB` (rule R64). -/
def asmOfBytes (bs : List Byte) : String := asmLine "DB" (bs.map (fun b => numeral 2 b.toNat))

end Sys2Proof
end

