-- ==== Sys2Proof/Machine/Events.lean ====
section
/-! DEFINITION. The host's side: Reset with a ROM, Tick, the key latch, and runs of events (spec files 60_exceptions.md
and 70_reset_and_hazards.md). -/

namespace Sys2Proof.Machine

/-! ### Reset and program load (rules R42 to R44, R190 to R192) -/

/-- Memory before `load_font`: every cell `MEM_FILL` (the first line of rule R190). -/
def Memory.filled : Memory := Memory.writeBytes [] fontBase (List.replicate Config.fontSize Config.memFill)

/-- The 80 bytes of `FONT_TABLE` in order. -/
def fontBytes : List Byte := Config.fontTable.toList

/-- `load_font()` (rule R42). -/
def Memory.loadFont (m : Memory) : Memory := m.writeBytes fontBase fontBytes

/-- `load_rom(bytes)` (rule R44): the length is checked before any copy. -/
def Memory.loadRom (m : Memory) (rom : List Byte) : Except FaultKind Memory :=
  if rom.length > Config.romMax then .error .romTooLarge else .ok (m.writeBytes Config.progBase rom)

/-- `Reset(rom)` (rule R190). `State.reset` is every element at its reset value with the font loaded; then `load_rom`
comes last, and a `RomTooLarge` finds all of that in place (rules R172, R191). -/
def State.boot (rom : List Byte) : State :=
  match State.reset.mem.loadRom rom with
  | .ok m => State.reset.setMem m
  | .error f => State.reset.raise f

/-! ### The timers (rule R178) -/

/-- Count down toward zero; a timer at zero stays there. -/
def countDown (b : Byte) : Byte := if b.toNat > 0 then b - 1#8 else b

/-- `Tick()` (rule R178). -/
def tick (s : State) : State :=
  match s.status with
  | .faulted _ => s
  | .running => { s with dt := countDown s.dt, st := countDown s.st }

/-! ### The key latch (rules R20, R53, R194) -/

/-- The host writes the key latch, between Steps. -/
def State.setKey (s : State) (k : Option Nibble) : State := { s with key := k }

/-! ### Events -/

/-- What drives the core: rule R3's three events, and the host's write of the key latch. -/
inductive Event where
  | reset (rom : List Byte)
  | step
  | tick
  | key (k : Option Nibble)
  deriving DecidableEq, Repr

/-- One event. A Reset rebuilds the whole state; the count of random draws is the host's source going on, not the
core's state (log 3). -/
def applyEvent (e : Event) (s : State) : Host.Outcome State Fault Refusal :=
  match e with
  | .reset rom => .next { State.boot rom with rndDraws := s.rndDraws }
  | .step => step s
  | .tick => .next (tick s)
  | .key k => .next (s.setKey k)

/-- Events one after the other, in any interleaving the host chooses (rules R75, R178, R194). -/
def runEvents : List Event → State → Host.Outcome State Fault Refusal
  | [], s => .next s
  | e :: es, s =>
    match applyEvent e s with
    | .next t => runEvents es t
    | .fault f => .fault f
    | .refused r => .refused r

end Sys2Proof.Machine
end

