-- ==== Sys2Proof/Machine/Outputs.lean ====
section
/-! DEFINITION. What the host reads between Steps: functions of the state or of the Step just taken, not state
(rules R23, R82, R143, R167). -/

namespace Sys2Proof.Machine

/-- The fault code (rule R167, decision D10). -/
def FaultKind.code : FaultKind → BitVec 3
  | .decodeUnrecognized _ => 1
  | .memoryOutOfBounds _ => 2
  | .stackOverflow => 3
  | .stackUnderflow => 4
  | .romTooLarge => 5

/-- The `info` of a fault: its payload, or zero (rules R21, R165). -/
def FaultKind.info : FaultKind → Word
  | .decodeUnrecognized w => w
  | .memoryOutOfBounds a => a
  | .stackOverflow | .stackUnderflow | .romTooLarge => 0

/-- `fault`: STATUS is FAULTED. -/
def Status.isFaulted : Status → Bool
  | .running => false
  | .faulted _ => true

/-- `fault_code`; 0 is no fault. -/
def Status.code : Status → BitVec 3
  | .running => 0
  | .faulted f => f.code

/-- `fault_info`. In FAULTED it is the fault's payload (rule R21). While RUNNING the spec gives the output no value
(rules R21, R23 and R167 and decision D10 speak of the code alone): it shows `idle`, a FREE VALUE that whoever reads the
output supplies and that nothing constrains. DESIGN CHOICE (log 13). -/
def Status.info (idle : Word) : Status → Word
  | .running => idle
  | .faulted f => f.info

/-- `awaiting_key` of the Step taken from `s`: it executes LdVxKey with `KEY = none` (rules R82, R151). -/
def awaitingKey (s : State) : Bool :=
  match s.pending with
  | some (.ldVxKey _) => s.key.isNone
  | _ => false

/-- `fb_changed` of the Step taken from `s`: it executes Cls or Drw to completion, whether or not a pixel changes
(rules R82, R143); a Drw that faults does not complete. -/
def fbChanged (s : State) : Bool :=
  match s.pending with
  | some .cls => true
  | some (.drw _ _ n) => (rangeFault s.base n.toNat).isNone
  | _ => false

/-- The grid the renderer sees: row-major, pixel (r, c) is element 64·r + c (rule R143). -/
def State.grid (s : State) : List Bool := (s.fb.toList.map Vector.toList).flatten

end Sys2Proof.Machine
end

