-- ==== Sys2Proof/Safety.lean ====
section
/-! DEFINITION. What counts as a safe run, the invariants of the machine, and the terms the statements use for what an
event leaves unchanged. -/

namespace Sys2Proof

open Sys2Proof.Machine

/-! ### Safe runs and invariants -/

/-- A state of a successful run: a FAULTED state never is one (rule R176). -/
abbrev Safe (s : State) : Prop := s.status = .running

/-- pc and every saved return address stay where the machine can put them: a pc of at most 0x10FE, entries of at most
0x1000 (rule R13's bound). -/
abbrev PcBounded (s : State) : Prop :=
  s.pc.toNat ≤ 0x10FE ∧ ∀ k : Fin 16, (s.stack[k.val]).toNat ≤ 0x1000

/-- A latched payload is one its fault can have: an unrecognized word, an address outside memory (rules R168, R169). -/
def PayloadHonest : Status → Prop
  | .faulted (.decodeUnrecognized w) => decode w = .unrecognized w
  | .faulted (.memoryOutOfBounds a) => 0x0FFF < a.toNat
  | .faulted .stackOverflow | .faulted .stackUnderflow | .faulted .romTooLarge => True
  | .running => True

/-- The three invariants together. -/
structure Inv (s : State) : Prop where
  memory : s.mem.wf
  pc : PcBounded s
  payload : PayloadHonest s.status

/-! ### Frames -/

/-- The parts of the state. -/
inductive Part where
  | v | i | pc | sp | stack | dt | st | fb | mem | key | status | draws
  deriving DecidableEq, Repr

/-- A part is the same in `t` as in `s`; for memory, every byte reads as before. -/
def Unchanged (s t : State) : Part → Prop
  | .v => ∀ j : RegIdx, t.reg j = s.reg j
  | .i => t.i = s.i
  | .pc => t.pc = s.pc
  | .sp => t.sp = s.sp
  | .stack => t.stack = s.stack
  | .dt => t.dt = s.dt
  | .st => t.st = s.st
  | .fb => t.fb = s.fb
  | .mem => ∀ a : Nat, t.mem.read a = s.mem.read a
  | .key => t.key = s.key
  | .status => t.status = s.status
  | .draws => t.rndDraws = s.rndDraws

/-- Every part but those listed is the same. -/
def KeepsAllBut (parts : List Part) (s t : State) : Prop := ∀ p : Part, p ∉ parts → Unchanged s t p

/-- Every general register but those listed is the same. -/
def KeepsRegsBut (written : List RegIdx) (s t : State) : Prop :=
  ∀ j : RegIdx, j ∉ written → t.reg j = s.reg j

/-- Every byte but the `count` bytes from `base` reads as before. -/
def KeepsBytesBut (base count : Nat) (s t : State) : Prop :=
  ∀ a : Nat, ¬ (base ≤ a ∧ a < base + count) → t.mem.read a = s.mem.read a

/-- The access matrix of rule R26: the parts an instruction may write in its execute phase (`pc` beyond the fetch's
own advance, `status` by a fault). -/
def mayWrite : Instr → List Part
  | .cls => [.fb]
  | .ret => [.pc, .sp, .status]
  | .call _ => [.pc, .sp, .stack, .status]
  | .jmp _ | .jmpV0 _ => [.pc]
  | .seVx _ _ | .sneVx _ _ | .seVxVy _ _ | .sneVxVy _ _ | .skp _ | .sknp _ => [.pc]
  | .ldVx _ _ | .addVx _ _ | .ldVxVy _ _ | .or _ _ | .and _ _ | .xor _ _ => [.v]
  | .add _ _ | .sub _ _ | .subn _ _ | .shr _ _ | .shl _ _ | .ldVxDt _ => [.v]
  | .rnd _ _ => [.v, .draws]
  | .ldI _ | .addIVx _ | .ldFVx _ => [.i]
  | .drw _ _ _ => [.v, .fb, .status]
  | .ldVxKey _ => [.v, .pc]
  | .ldDtVx _ => [.dt]
  | .ldStVx _ => [.st]
  | .ldBVx _ | .stRegs _ => [.mem, .status]
  | .ldRegs _ => [.v, .status]

/-- The general registers an instruction may write: its destination, and VF for the six that write it (rules R11,
R26). -/
def mayWriteRegs : Instr → List RegIdx
  | .ldVx x _ | .addVx x _ | .ldVxVy x _ | .or x _ | .and x _ | .xor x _ | .rnd x _ | .ldVxDt x | .ldVxKey x => [x]
  | .add x _ | .sub x _ | .subn x _ | .shr x _ | .shl x _ => [x, 0xF#4]
  | .drw _ _ _ => [0xF#4]
  | .ldRegs x => (List.range (x.toNat + 1)).map (BitVec.ofNat 4)
  | .cls | .ret | .jmp _ | .call _ | .seVx _ _ | .sneVx _ _ | .seVxVy _ _ | .sneVxVy _ _ | .ldI _ | .jmpV0 _
  | .skp _ | .sknp _ | .ldDtVx _ | .ldStVx _ | .addIVx _ | .ldFVx _ | .ldBVx _ | .stRegs _ => []

/-- How many bytes an instruction stores, from the address I holds (rules R26, R47). -/
def storedCount : Instr → Nat
  | .ldBVx _ => 3
  | .stRegs x => x.toNat + 1
  | .cls | .ret | .jmp _ | .call _ | .seVx _ _ | .sneVx _ _ | .seVxVy _ _ | .ldVx _ _ | .addVx _ _ | .ldVxVy _ _
  | .or _ _ | .and _ _ | .xor _ _ | .add _ _ | .sub _ _ | .shr _ _ | .subn _ _ | .shl _ _ | .sneVxVy _ _ | .ldI _
  | .jmpV0 _ | .rnd _ _ | .drw _ _ _ | .skp _ | .sknp _ | .ldVxDt _ | .ldVxKey _ | .ldDtVx _ | .ldStVx _
  | .addIVx _ | .ldFVx _ | .ldRegs _ => 0

/-! ### What a Step must do, in the spec's tables -/

/-- The fault a Step from a RUNNING state meets, phase by phase: the fetch's bounds check, the decode, the one check of
the instruction's own arm (rules R168 to R171, R173). -/
def faultOf (s : State) : Option FaultKind :=
  if s.pc.toNat > 0x0FFE then some (.memoryOutOfBounds (BitVec.ofNat 16 (max s.pc.toNat 0x1000)))
  else
    match decode (wordOfBytes (s.mem.read s.pc.toNat) (s.mem.read (s.pc.toNat + 1))) with
    | .unrecognized w => some (.decodeUnrecognized w)
    | .instr .ret => if s.sp = 0 then some .stackUnderflow else none
    | .instr (.call _) => if s.sp = 16 then some .stackOverflow else none
    | .instr (.drw _ _ n) => beyond s (n.toNat : Int)
    | .instr (.ldBVx _) => beyond s 3
    | .instr (.stRegs x) => beyond s (x.toNat + 1 : Int)
    | .instr (.ldRegs x) => beyond s (x.toNat + 1 : Int)
    | .instr _ => none
where
  /-- `count` bytes from I reach past 0x0FFF; none of them do when there are none (rule R169's table). -/
  beyond (s : State) (count : Int) : Option FaultKind :=
    if count > 0 ∧ (s.i.toNat : Int) + count - 1 > 0x0FFF then
      some (.memoryOutOfBounds (BitVec.ofNat 16 (max s.i.toNat 0x1000)))
    else none

/-- Rule R79's table: pc after a Step from `s` that executes `i` to completion; A is `s.pc`. -/
def PcAfter (s t : State) : Instr → Prop
  | .jmp nnn | .call nnn => t.pc.toNat = nnn.toNat
  | .ret => ∃ h : 0 < s.sp.val, t.pc = s.stack[s.sp.val - 1]'(by omega)
  | .jmpV0 nnn => t.pc.toNat = nnn.toNat + (s.reg 0x0#4).toNat
  | .seVx x kk => t.pc = s.pc + if s.reg x = kk then 4#16 else 2#16
  | .sneVx x kk => t.pc = s.pc + if s.reg x = kk then 2#16 else 4#16
  | .seVxVy x y => t.pc = s.pc + if s.reg x = s.reg y then 4#16 else 2#16
  | .sneVxVy x y => t.pc = s.pc + if s.reg x = s.reg y then 2#16 else 4#16
  | .skp x => t.pc = s.pc + if s.key.map BitVec.toNat = some (s.reg x).toNat then 4#16 else 2#16
  | .sknp x => t.pc = s.pc + if s.key.map BitVec.toNat = some (s.reg x).toNat then 2#16 else 4#16
  | .ldVxKey _ => t.pc = s.pc + if s.key = none then 0#16 else 2#16
  | .cls | .ldVx _ _ | .addVx _ _ | .ldVxVy _ _ | .or _ _ | .and _ _ | .xor _ _ | .add _ _ | .sub _ _ | .shr _ _
  | .subn _ _ | .shl _ _ | .ldI _ | .rnd _ _ | .drw _ _ _ | .ldVxDt _ | .ldDtVx _ | .ldStVx _ | .addIVx _ | .ldFVx _
  | .ldBVx _ | .stRegs _ | .ldRegs _ => t.pc = s.pc + 2#16

/-- The sprite bit that falls on pixel (r, c) when the `n` rows at I are drawn with their top-left corner at (Vx mod
64, Vy mod 32): row r − y0 of the sprite, bit 7 leftmost; no bit falls outside the sprite (rule R141). -/
def spriteBit (s : State) (x y : RegIdx) (n : Nibble) (r c : Nat) : Bool :=
  let x0 := (s.reg x).toNat % 64
  let y0 := (s.reg y).toNat % 32
  decide (y0 ≤ r ∧ r < y0 + n.toNat ∧ x0 ≤ c ∧ c < x0 + 8) &&
    (s.mem.read (s.i.toNat + (r - y0))).getLsbD (7 - (c - x0))

/-- Some visible sprite bit lands on a set pixel (rule R142's collision). -/
def Collides (s : State) (x y : RegIdx) (n : Nibble) : Prop :=
  ∃ r c : Nat, r < 32 ∧ c < 64 ∧ s.fb.pixel r c = true ∧ spriteBit s x y n r c = true

end Sys2Proof
end

