-- ==== Sys2Proof/Certificates/Slice0/Obligations.lean ====
section
/-! DEFINITION. The statements for the provers, each one a rule of the spec or drawn from several. `exec` acts on the
state the fetch leaves: pc holds A + 2. Where a statement rests on a decision of the spec (D<n>, its own choice where its
source is silent) or on a choice of the model (a log entry), its docstring says so. -/

section

open Sys2Proof Sys2Proof.Machine

/-! ### Encoding -/

/-- Rules R55 to R60: every instruction, with every operand at every value, is read back from its word and from its
bytes, whatever bytes follow. Every `Instr` is well formed (Laws/Encoding.lean), so no hypothesis is needed. -/
def Obligations.DecodeOfEncodeIsIdentity : Prop :=
  ∀ (i : Instr) (rest : List Byte),
    decode (encode i) = .instr i ∧ decodeBytes (encodeBytes i ++ rest) = .instr i rest

/-- Rule R66 in the other direction: a word that decodes to an instruction is that instruction's word, so no two words
share an instruction and no bit is ignored. -/
def Obligations.EncodeOfDecodeIsIdentity : Prop :=
  ∀ (w : Word) (i : Instr), decode w = .instr i → encode i = w

/-- Rule R61: the unrecognized space, family by family, on the word as a number; a rejected word is rejected under its
own name. -/
def Obligations.UnrecognizedSpaceIsExact : Prop :=
  ∀ w : Word,
    let op := w.toNat / 0x1000
    let kk := w.toNat % 0x100
    let n := w.toNat % 0x10
    decode w = .unrecognized w ↔
      (op = 0x0 ∧ w.toNat ≠ 0x00E0 ∧ w.toNat ≠ 0x00EE) ∨
      ((op = 0x5 ∨ op = 0x9) ∧ n ≠ 0) ∨
      (op = 0x8 ∧ (n = 0x8 ∨ n = 0x9 ∨ n = 0xA ∨ n = 0xB ∨ n = 0xC ∨ n = 0xD ∨ n = 0xF)) ∨
      (op = 0xE ∧ kk ≠ 0x9E ∧ kk ≠ 0xA1) ∨
      (op = 0xF ∧ kk ≠ 0x07 ∧ kk ≠ 0x0A ∧ kk ≠ 0x15 ∧ kk ≠ 0x18 ∧ kk ≠ 0x1E ∧ kk ≠ 0x29 ∧ kk ≠ 0x33 ∧ kk ≠ 0x55 ∧
        kk ≠ 0x65)

/-- Rules R60 and R66: the decoder and the mask-and-match table agree. A word decodes to an instruction exactly when it
selects a row, and then it selects that instruction's row and no other. -/
def Obligations.DecoderAgreesWithOpcodeTable : Prop :=
  ∀ w : Word,
    ((∃ i, decode w = .instr i) ↔ ∃ r ∈ opcodeTable, r.selects w) ∧
    (∀ i, decode w = .instr i → i.row ∈ opcodeTable ∧ i.row.selects w) ∧
    (∀ r ∈ opcodeTable, ∀ r' ∈ opcodeTable, r.selects w → r'.selects w → r = r')

/-- The source's own decoding examples (test vectors S1 to S5 and S12), and three more words of the table of one word
per row: A123, EFA1 and F355. -/
def Obligations.SampleWordsDecode : Prop :=
  decode 0x00E0 = .instr .cls ∧ decode 0x1ABC = .instr (.jmp 0xABC) ∧ decode 0x61AB = .instr (.ldVx 0x1 0xAB) ∧
  decode 0x8A15 = .instr (.sub 0xA 0x1) ∧ decode 0xDAB1 = .instr (.drw 0xA 0xB 0x1) ∧
  decode 0x0000 = .unrecognized 0x0000 ∧ decode 0xA123 = .instr (.ldI 0x123) ∧ decode 0xEFA1 = .instr (.sknp 0xF) ∧
  decode 0xF355 = .instr (.stRegs 0x3)

/-! ### Fetch and Step -/

/-- Rules R40 and R45: the fetch is big-endian and succeeds exactly when both bytes are in range; otherwise it names
the lowest out-of-range address (decision D12). -/
def Obligations.FetchIsBigEndianAndBounded : Prop :=
  ∀ (m : Memory) (a : Nat),
    (a ≤ 0x0FFE → ∃ w, m.readWord a = .ok w ∧ w.toNat = 256 * (m.read a).toNat + (m.read (a + 1)).toNat) ∧
    (a > 0x0FFE → a < 0x10000 → ∃ f, m.readWord a = .error (.memoryOutOfBounds f) ∧ f.toNat = max a 0x1000)

/-- Rules R75 and R79: when the two bytes at pc decode to a (necessarily well-formed) instruction `i` and the core is
RUNNING, a Step is `exec i` on the state with pc advanced by 2. -/
def Obligations.StepRunsTheDecodedInstruction : Prop :=
  ∀ (s : State) (i : Instr),
    s.status = .running → s.pc.toNat ≤ 0x0FFE →
    decodeBytes [s.mem.read s.pc.toNat, s.mem.read (s.pc.toNat + 1)] = .instr i [] →
    step s = exec i { s with pc := s.pc + 2 }

/-- Rules R76 and R169: a fetch above 0x0FFE faults, pc is not advanced and nothing but STATUS changes (decisions D12,
D13). -/
def Obligations.FetchFaultKeepsPc : Prop :=
  ∀ s : State, s.status = .running → s.pc.toNat > 0x0FFE →
    ∃ t a, step s = .next t ∧ t.status = .faulted (.memoryOutOfBounds a) ∧ a.toNat = max s.pc.toNat 0x1000 ∧
      KeepsAllBut [.status] s t

/-- Rules R77 and R168: an unrecognized word faults with the word, leaves pc at A + 2, and changes nothing else
(decision D13 for pc). -/
def Obligations.UnrecognizedWordFaults : Prop :=
  ∀ (s : State) (w : Word), s.status = .running → s.pc.toNat ≤ 0x0FFE → s.mem.word s.pc.toNat = w →
    decode w = .unrecognized w →
    ∃ t, step s = .next t ∧ t.status = .faulted (.decodeUnrecognized w) ∧ t.pc.toNat = s.pc.toNat + 2 ∧
      KeepsAllBut [.pc, .status] s t

/-- Rules R80, R175 and R178: in the FAULTED state a Step and a Tick change nothing, however many there are and however
they and key writes fall; only the latch KEY follows the host (decision D9). -/
def Obligations.FaultedCoreIsIdleUntilReset : Prop :=
  ∀ (es : List Event) (s t : State), s.status ≠ .running → (∀ rom, Event.reset rom ∉ es) →
    runEvents es s = .next t → t = { s with key := t.key }

/-- Rule R78: the dispatch is exhaustive. Every instruction answers a next state from every state, and so does every
Step and every event: nothing is refused and nothing stops the machine from outside (log 5). -/
def Obligations.EveryInstructionAndEventAnswersNext : Prop :=
  (∀ (i : Instr) (s : State), ∃ t, exec i s = .next t) ∧ (∀ s : State, ∃ t, step s = .next t) ∧
    (∀ (es : List Event) (s : State), ∃ t, runEvents es s = .next t)

/-- Rule R79, its whole table and its last sentence: pc after a Step that completes, for each of the 34 instructions;
a Call pushes A + 2. -/
def Obligations.ProgramCounterLaw : Prop :=
  ∀ (s t : State) (i : Instr), s.pending = some i → step s = .next t → t.status = .running →
    PcAfter s t i ∧
    (∀ nnn, i = .call nnn → ∃ h : s.sp.val < 16, t.stack[s.sp.val] = s.pc + 2#16)

/-- Rules R168 to R171 and R173: which fault a Step from a RUNNING state meets, if any: fetch, then decode, then the one
check of the instruction's arm (decisions D6, D11, D12 for the details). -/
def Obligations.FaultsAreExactlyTheSpecs : Prop :=
  ∀ s : State, s.status = .running →
    ∃ t, step s = .next t ∧
      t.status = (match faultOf s with
        | none => .running
        | some f => .faulted f)

/-- Rules R166 and R176: faults are precise. A Step that faults has written nothing but STATUS and, unless the fetch
itself faulted, pc by its fetch (decisions D11, D13). -/
def Obligations.FaultsArePrecise : Prop :=
  ∀ (s t : State), s.status = .running → step s = .next t → t.status ≠ .running →
    KeepsAllBut [.pc, .status] s t ∧
    t.pc = (if s.pc.toNat > 0x0FFE then s.pc else s.pc + 2#16)

/-- Rule R85: a Jmp to its own address is a fixed point of Step. -/
def Obligations.JumpToSelfIsAFixedPoint : Prop :=
  ∀ (s : State) (nnn : Addr12), s.pending = some (.jmp nnn) → nnn.toNat = s.pc.toNat → step s = .next s

/-! ### Whole-machine rules -/

/-- Rule R26, the access matrix, over all 34 instructions: what an instruction's column does not let it write is
unchanged, every byte of memory included. -/
def Obligations.AccessMatrixHolds : Prop :=
  ∀ (i : Instr) (s t : State), exec i s = .next t → KeepsAllBut (mayWrite i) s t

/-- Rules R11 and R26, over all 34 instructions: the only general registers an instruction changes are its destination
and, for the six that write it, VF. -/
def Obligations.OnlyDestinationsAndVfChange : Prop :=
  ∀ (i : Instr) (s t : State), exec i s = .next t → KeepsRegsBut (mayWriteRegs i) s t

/-- Rules R26, R47 and R125, over all 34 instructions: the only bytes an instruction changes are the ones it stores,
from the address I held before. -/
def Obligations.OnlyStoredBytesChange : Prop :=
  ∀ (i : Instr) (s t : State), exec i s = .next t → KeepsBytesBut s.base (storedCount i) s t

/-- Rules R20, R81 and R84: a Step neither writes KEY nor, for an instruction other than Skp, Sknp and LdVxKey, depends
on it. -/
def Obligations.OnlyKeyInstructionsSeeTheKey : Prop :=
  ∀ (i : Instr) (s t : State) (k : Option Nibble),
    (∀ x, i ≠ .skp x ∧ i ≠ .sknp x ∧ i ≠ .ldVxKey x) →
    exec i s = .next t → exec i (s.setKey k) = .next (t.setKey k)

/-- Rules R22, R81 and R84: an instruction other than Rnd depends on no random byte: it runs alike at every point of the
host's random source and draws nothing from it. -/
def Obligations.OnlyRndDrawsARandomByte : Prop :=
  ∀ (i : Instr) (s t : State) (k : Nat),
    (∀ x kk, i ≠ .rnd x kk) →
    exec i s = .next t →
    t.rndDraws = s.rndDraws ∧ exec i { s with rndDraws := k } = .next { t with rndDraws := k }

/-- Rules R53, R82 and R143: `fb_changed` never misses a change. A Step that does not report it leaves every pixel as it
was (decision D32). -/
def Obligations.FbChangedMissesNothing : Prop :=
  ∀ (s t : State), step s = .next t → fbChanged s = false →
    ∀ r c : Nat, t.fb.pixel r c = s.fb.pixel r c

/-! ### Invariants -/

/-- Rule R19: every Step keeps memory in its canonical form, addresses in range (the form is the model's, log 4). -/
def Obligations.StepKeepsMemoryCanonical : Prop :=
  ∀ (s t : State), s.mem.wf → step s = .next t → t.mem.wf

/-- Rule R13's bound: every Step keeps pc at most 0x10FE and every stack entry at most 0x1000. -/
def Obligations.StepKeepsPcBounded : Prop :=
  ∀ (s t : State), PcBounded s → step s = .next t → PcBounded t

/-- Rules R168 and R169: every Step keeps the fault latch's payload one that its fault can have. -/
def Obligations.StepKeepsPayloadHonest : Prop :=
  ∀ (s t : State), PayloadHonest s.status → step s = .next t → PayloadHonest t.status

/-- All three invariants hold after a Reset with any ROM, too long or not, and every run of events keeps them, wherever
the Ticks and key writes fall (rules R53, R178, R190). The memory invariant is the model's own list form, no rule of the
spec (log 4, DESIGN CHOICE). -/
def Obligations.EveryRunKeepsTheInvariants : Prop :=
  (∀ rom : List Byte, Inv (State.boot rom)) ∧
    ∀ (es : List Event) (s t : State), Inv s → runEvents es s = .next t → Inv t

/-- The invariants hold at reset. The memory invariant is the model's own list form, no rule of the spec (log 4, DESIGN
CHOICE). -/
def Obligations.ResetMeetsTheInvariants : Prop := Inv State.reset

/-! ### Reset and Tick -/

/-- Rule R25: every element after a Reset with an empty ROM; MEM_FILL, KEY and STATUS are the spec's decisions D5, D16
and D9, and FONT_BASE and FONT_TABLE are free (log 1, log 2). -/
def Obligations.ResetValues : Prop :=
  (∀ x : RegIdx, State.reset.reg x = 0x00) ∧ State.reset.i = 0x0000 ∧ State.reset.pc = 0x0200 ∧
  State.reset.sp.val = 0 ∧ (∀ k : Fin 16, State.reset.stack[k.val] = 0x0000) ∧ State.reset.dt = 0x00 ∧
  State.reset.st = 0x00 ∧ (∀ r c : Nat, State.reset.fb.pixel r c = false) ∧ State.reset.key = none ∧
  State.reset.status = .running ∧
  (∀ j : Fin 80, State.reset.mem.read (Config.fontBase.val + j.val) = Config.fontTable[j.val]) ∧
  (∀ a : Nat, a < 0x1000 → ¬ (Config.fontBase.val ≤ a ∧ a < Config.fontBase.val + 80) →
    State.reset.mem.read a = 0x00)

/-- Rules R44, R190 and R191: the memory image after a Reset with a ROM of at most 3584 bytes; nothing but memory
differs from the reset state (MEM_FILL 0x00 is decision D5). It is made as rule R190 says: filled, then load_font, then
the ROM. The model's reset memory, in which nothing is listed (log 4), leaves none of this out. -/
def Obligations.RomIsPlacedAtProgramBase : Prop :=
  ∀ rom : List Byte, rom.length ≤ 3584 →
    ∃ m, State.boot rom = { State.reset with mem := m } ∧
      m = Memory.filled.loadFont.writeBytes Config.progBase rom ∧
      (∀ j : Fin 80, m.read (Config.fontBase.val + j.val) = Config.fontTable[j.val]) ∧
      (∀ (j : Nat) (h : j < rom.length), m.read (0x200 + j) = rom[j]) ∧
      (∀ a : Nat, a < 0x1000 → ¬ (Config.fontBase.val ≤ a ∧ a < Config.fontBase.val + 80) →
        ¬ (0x200 ≤ a ∧ a < 0x200 + rom.length) → m.read a = 0x00)

/-- Rules R44 and R172: a longer ROM is refused with nothing of it stored; everything but STATUS is at its reset value
(decision D30), and no Step runs. -/
def Obligations.RomTooLargeLeavesMemoryUnmodified : Prop :=
  ∀ rom : List Byte, rom.length > 3584 →
    State.boot rom = { State.reset with status := .faulted .romTooLarge } ∧
      step (State.boot rom) = .next (State.boot rom)

/-- Rule R42: load_font puts byte 5·d + j of the table at FONT_BASE + 5·d + j, below the program region, changes no other
byte, cannot leave memory, and running it twice is running it once. A Reset runs it before it stores the ROM. The last
clause is about the model's own list form of memory, no rule of the spec (log 4, DESIGN CHOICE). -/
def Obligations.LoadFontPlacesTheTableIdempotently : Prop :=
  (∀ rom : List Byte, rom.length ≤ 3584 →
    ∃ m : Memory, (State.boot rom).mem = m.loadFont.writeBytes Config.progBase rom) ∧
  ∀ m : Memory,
    (∀ d j : Nat, d < 16 → (hj : j < 5) →
      ∃ h : 5 * d + j < 80, m.loadFont.read (Config.fontBase.val + 5 * d + j) = Config.fontTable[5 * d + j] ∧
        Config.fontBase.val + 5 * d + j ≤ 0x1FF) ∧
    (∀ a : Nat, ¬ (Config.fontBase.val ≤ a ∧ a ≤ Config.fontBase.val + 79) → m.loadFont.read a = m.read a) ∧
    (∀ a : Nat, m.loadFont.loadFont.read a = m.loadFont.read a) ∧
    (m.wf → m.loadFont.wf ∧ m.loadFont.loadFont = m.loadFont)

/-- Rule R192: the first Step after a Reset with no ROM fetches 0x0000 at 0x0200 and faults (MEM_FILL is decision D5). -/
def Obligations.EmptyRomFaultsAtOnce : Prop :=
  ∃ t, step (State.boot []) = .next t ∧ t.status = .faulted (.decodeUnrecognized 0x0000) ∧ t.pc = 0x0202 ∧
    KeepsAllBut [.pc, .status] (State.boot []) t

/-- Rule R178: a Tick on a RUNNING core counts each timer down by one, stops at zero, and writes nothing else (decision
D25). -/
def Obligations.TickCountsBothTimersDown : Prop :=
  ∀ s : State, s.status = .running →
    ∃ t, applyEvent .tick s = .next t ∧ t.dt.toNat = s.dt.toNat - 1 ∧ t.st.toNat = s.st.toNat - 1 ∧
      KeepsAllBut [.dt, .st] s t

/-! ### Control transfer -/

/-- Rule R91: pc gets nnn, and nothing else is written. -/
def Obligations.JmpLoadsPc : Prop :=
  ∀ (nnn : Addr12) (s : State),
    decode (0x1#4 ++ nnn) = .instr (.jmp nnn) ∧
    ∃ t, exec (.jmp nnn) s = .next t ∧ t.pc.toNat = nnn.toNat ∧ KeepsAllBut [.pc] s t

/-- Rule R93: a 16-bit sum, not reduced to 12 bits (decision D27); V0 whatever the word's `x` nibble is. -/
def Obligations.JmpV0AddsV0 : Prop :=
  ∀ (nnn : Addr12) (s : State),
    decode (0xB#4 ++ nnn) = .instr (.jmpV0 nnn) ∧
    ∃ t, exec (.jmpV0 nnn) s = .next t ∧ t.pc.toNat = nnn.toNat + (s.reg 0x0#4).toNat ∧ KeepsAllBut [.pc] s t

/-- Rules R92 and R170: with room, Call stores the return address in the entry that becomes the top; with sixteen live
entries it faults and writes nothing else (the numbering of entries is decision D6). -/
def Obligations.CallPushesTheReturnAddress : Prop :=
  ∀ (nnn : Addr12) (s : State),
    ((h : s.sp.val < 16) → ∃ t, exec (.call nnn) s = .next t ∧ t.sp.val = s.sp.val + 1 ∧
      t.stack[s.sp.val] = s.pc ∧ (∀ k : Fin 16, k.val ≠ s.sp.val → t.stack[k.val] = s.stack[k.val]) ∧
      t.pc.toNat = nnn.toNat ∧ KeepsAllBut [.pc, .sp, .stack] s t) ∧
    (s.sp.val = 16 → ∃ t, exec (.call nnn) s = .next t ∧ t.status = .faulted .stackOverflow ∧
      KeepsAllBut [.status] s t)

/-- Rule R90: with a live entry, Ret loads pc from the top and decrements SP, the entry keeping its bits; with none it
faults and writes nothing else. -/
def Obligations.RetPopsTheReturnAddress : Prop :=
  ∀ s : State,
    decode 0x00EE = .instr .ret ∧
    ((h : 0 < s.sp.val) → ∃ t, exec .ret s = .next t ∧ t.pc = s.stack[s.sp.val - 1]'(by omega) ∧
      t.sp.val = s.sp.val - 1 ∧ KeepsAllBut [.pc, .sp] s t) ∧
    (s.sp.val = 0 → ∃ t, exec .ret s = .next t ∧ t.status = .faulted .stackUnderflow ∧ KeepsAllBut [.status] s t)

/-- Vector S9 for all states: a Call with room, then a Ret from any state that still has the call's stack, comes back to
the address after the call with SP as before (rules R90, R92). -/
def Obligations.RetUndoesCall : Prop :=
  ∀ (nnn : Addr12) (s t u : State), s.sp.val < 16 → exec (.call nnn) s = .next t →
    u.sp = t.sp → u.stack = t.stack →
    ∃ v, exec .ret u = .next v ∧ v.pc = s.pc ∧ v.sp = s.sp ∧ KeepsAllBut [.pc, .sp] u v

/-- Rules R94 and R95: SeVx skips exactly when Vx = kk, SneVx exactly when Vx ≠ kk. -/
def Obligations.ImmediateSkips : Prop :=
  ∀ (x : RegIdx) (kk : Byte) (s : State),
    decode ((0x3#4 ++ x) ++ kk) = .instr (.seVx x kk) ∧ decode ((0x4#4 ++ x) ++ kk) = .instr (.sneVx x kk) ∧
    (∃ t, exec (.seVx x kk) s = .next t ∧ t.pc = (if s.reg x = kk then s.pc + 2 else s.pc) ∧
      KeepsAllBut [.pc] s t) ∧
    (∃ t, exec (.sneVx x kk) s = .next t ∧ t.pc = (if s.reg x = kk then s.pc else s.pc + 2) ∧
      KeepsAllBut [.pc] s t)

/-- Rules R96 and R97: SeVxVy skips exactly when Vx = Vy, SneVxVy exactly when Vx ≠ Vy; with a low nibble other than 0
the word is unrecognized. -/
def Obligations.RegisterSkips : Prop :=
  ∀ (x y : RegIdx) (s : State),
    decode ((0x5#4 ++ x) ++ (y ++ 0x0#4)) = .instr (.seVxVy x y) ∧
    decode ((0x9#4 ++ x) ++ (y ++ 0x0#4)) = .instr (.sneVxVy x y) ∧
    (∀ n : Nibble, n ≠ 0x0#4 →
      decode ((0x5#4 ++ x) ++ (y ++ n)) = .unrecognized ((0x5#4 ++ x) ++ (y ++ n)) ∧
      decode ((0x9#4 ++ x) ++ (y ++ n)) = .unrecognized ((0x9#4 ++ x) ++ (y ++ n))) ∧
    (∃ t, exec (.seVxVy x y) s = .next t ∧ t.pc = (if s.reg x = s.reg y then s.pc + 2 else s.pc) ∧
      KeepsAllBut [.pc] s t) ∧
    (∃ t, exec (.sneVxVy x y) s = .next t ∧ t.pc = (if s.reg x = s.reg y then s.pc else s.pc + 2) ∧
      KeepsAllBut [.pc] s t)

/-! ### Loads, ALU, shifts, random -/

/-- Rule R106: Vx gets kk, and nothing else is written. -/
def Obligations.LdVxLoadsTheImmediate : Prop :=
  ∀ (x : RegIdx) (kk : Byte) (s : State),
    decode ((0x6#4 ++ x) ++ kk) = .instr (.ldVx x kk) ∧
    ∃ t, exec (.ldVx x kk) s = .next t ∧ t.reg x = kk ∧ KeepsRegsBut [x] s t ∧ KeepsAllBut [.v] s t

/-- Rule R107: AddVx wraps modulo 256 and writes no flag, VF included unless it is the destination (decision D20). -/
def Obligations.AddImmediateWrapsWithoutFlag : Prop :=
  ∀ (x : RegIdx) (kk : Byte) (s : State),
    ∃ t, exec (.addVx x kk) s = .next t ∧ (t.reg x).toNat = ((s.reg x).toNat + kk.toNat) % 256 ∧
      KeepsRegsBut [x] s t ∧ KeepsAllBut [.v] s t

/-- Rules R108 to R111, the move and, bit by bit, the logic operations: each writes Vx only; VF is not written unless it
is Vx (decision D20). -/
def Obligations.MoveAndLogicOperations : Prop :=
  ∀ (x y : RegIdx) (s : State),
    (∃ t, exec (.ldVxVy x y) s = .next t ∧ t.reg x = s.reg y ∧ KeepsRegsBut [x] s t ∧ KeepsAllBut [.v] s t) ∧
    (∃ t, exec (.or x y) s = .next t ∧
      (∀ b : Nat, (t.reg x).getLsbD b = ((s.reg x).getLsbD b || (s.reg y).getLsbD b)) ∧
      KeepsRegsBut [x] s t ∧ KeepsAllBut [.v] s t) ∧
    (∃ t, exec (.and x y) s = .next t ∧
      (∀ b : Nat, (t.reg x).getLsbD b = ((s.reg x).getLsbD b && (s.reg y).getLsbD b)) ∧
      KeepsRegsBut [x] s t ∧ KeepsAllBut [.v] s t) ∧
    (∃ t, exec (.xor x y) s = .next t ∧
      (∀ b : Nat, (t.reg x).getLsbD b = ((s.reg x).getLsbD b ^^ (s.reg y).getLsbD b)) ∧
      KeepsRegsBut [x] s t ∧ KeepsAllBut [.v] s t)

/-- Rule R112: Vx gets the sum modulo 256 unless x = F, VF ends as the carry in every form; both operands are the values
from before the instruction. -/
def Obligations.AddSetsCarry : Prop :=
  ∀ (x y : RegIdx) (s : State),
    decode ((0x8#4 ++ x) ++ (y ++ 0x4#4)) = .instr (.add x y) ∧
    ∃ t, exec (.add x y) s = .next t ∧
      (t.reg 0xF#4).toNat = ((s.reg x).toNat + (s.reg y).toNat) / 256 ∧
      (x ≠ 0xF#4 → (t.reg x).toNat = ((s.reg x).toNat + (s.reg y).toNat) % 256) ∧
      KeepsRegsBut [x, 0xF#4] s t ∧ KeepsAllBut [.v] s t

/-- Rules R113 and R117: Sub and Subn, with VF = not-borrow, equality included (decision D21), in every form; the
difference is that of the integers modulo 256. -/
def Obligations.SubtractionsSetNotBorrow : Prop :=
  ∀ (x y : RegIdx) (s : State),
    (∃ t, exec (.sub x y) s = .next t ∧
      t.reg 0xF#4 = (if (s.reg x).toNat < (s.reg y).toNat then 0x00 else 0x01) ∧
      (x ≠ 0xF#4 → ((t.reg x).toNat : Int) = ((s.reg x).toNat - (s.reg y).toNat : Int) % 256) ∧
      KeepsRegsBut [x, 0xF#4] s t ∧ KeepsAllBut [.v] s t) ∧
    (∃ t, exec (.subn x y) s = .next t ∧
      t.reg 0xF#4 = (if (s.reg y).toNat < (s.reg x).toNat then 0x00 else 0x01) ∧
      (x ≠ 0xF#4 → ((t.reg x).toNat : Int) = ((s.reg y).toNat - (s.reg x).toNat : Int) % 256) ∧
      KeepsRegsBut [x, 0xF#4] s t ∧ KeepsAllBut [.v] s t)

/-- Rules R116 and R118: Vx is shifted in place by one and VF ends as the bit shifted out, in every form, whatever Vy
holds (rule R115, decision D22). Result and flag together are the operand again. -/
def Obligations.ShiftsMoveOneBitIntoVf : Prop :=
  ∀ (x y : RegIdx) (s : State),
    (∃ t, exec (.shr x y) s = .next t ∧ (t.reg 0xF#4).toNat = (s.reg x).toNat % 2 ∧
      (x ≠ 0xF#4 → 2 * (t.reg x).toNat + (t.reg 0xF#4).toNat = (s.reg x).toNat) ∧
      KeepsRegsBut [x, 0xF#4] s t ∧ KeepsAllBut [.v] s t) ∧
    (∃ t, exec (.shl x y) s = .next t ∧ (t.reg 0xF#4).toNat = (s.reg x).toNat / 128 ∧
      (x ≠ 0xF#4 → 256 * (t.reg 0xF#4).toNat + (t.reg x).toNat = 2 * (s.reg x).toNat) ∧
      KeepsRegsBut [x, 0xF#4] s t ∧ KeepsAllBut [.v] s t)

/-- Rule R119: Vx = random byte AND kk, for every byte the host's source gives: a new free byte for each executed Rnd
(decision D26, log 3). No bit outside kk is ever set. -/
def Obligations.RndMasksAFreshByte : Prop :=
  ∀ (x : RegIdx) (kk : Byte) (s : State),
    ∃ t, exec (.rnd x kk) s = .next t ∧ t.reg x = Config.rndByte s.rndDraws &&& kk ∧
      t.reg x &&& ~~~kk = 0x00 ∧ t.rndDraws = s.rndDraws + 1 ∧
      KeepsRegsBut [x] s t ∧ KeepsAllBut [.v, .draws] s t

/-! ### Address register and memory -/

/-- Rule R126: I gets nnn, and nothing else is written. -/
def Obligations.LdILoadsI : Prop :=
  ∀ (nnn : Addr12) (s : State),
    decode (0xA#4 ++ nnn) = .instr (.ldI nnn) ∧
    ∃ t, exec (.ldI nnn) s = .next t ∧ t.i.toNat = nnn.toNat ∧ KeepsAllBut [.i] s t

/-- Rules R127 and R128: AddIVx wraps modulo 2^16 (decision D17) and writes no flag (decision D20); LdFVx points I at the
five bytes of the glyph of Vx's low nibble (decision D18) wherever FONT_BASE is, all below the program region. -/
def Obligations.IndexArithmetic : Prop :=
  ∀ (x : RegIdx) (s : State),
    (∃ t, exec (.addIVx x) s = .next t ∧ t.i.toNat = (s.i.toNat + (s.reg x).toNat) % 65536 ∧
      KeepsAllBut [.i] s t) ∧
    (∃ t, exec (.ldFVx x) s = .next t ∧ t.i.toNat = Config.fontBase.val + 5 * ((s.reg x).toNat % 16) ∧
      t.i.toNat + 5 ≤ 0x200 ∧ KeepsAllBut [.i] s t)

/-- Rule R129: the three decimal digits at I, I + 1, I + 2, or, when the last of them is out of range, a fault with
nothing written. -/
def Obligations.BcdStoresThreeDigits : Prop :=
  ∀ (x : RegIdx) (s : State),
    decode ((0xF#4 ++ x) ++ 0x33#8) = .instr (.ldBVx x) ∧
    (s.i.toNat + 2 ≤ 0x0FFF → ∃ t, exec (.ldBVx x) s = .next t ∧
      (t.mem.read s.i.toNat).toNat = (s.reg x).toNat / 100 ∧
      (t.mem.read (s.i.toNat + 1)).toNat = (s.reg x).toNat / 10 % 10 ∧
      (t.mem.read (s.i.toNat + 2)).toNat = (s.reg x).toNat % 10 ∧
      KeepsBytesBut s.i.toNat 3 s t ∧ KeepsAllBut [.mem] s t) ∧
    (s.i.toNat + 2 > 0x0FFF → ∃ t a, exec (.ldBVx x) s = .next t ∧
      t.status = .faulted (.memoryOutOfBounds a) ∧ a.toNat = max s.i.toNat 0x1000 ∧ KeepsAllBut [.status] s t)

/-- Rule R130: V0 to Vx at I up, or a fault with nothing written; I is unchanged (decision D19). -/
def Obligations.StRegsStoresTheRegisters : Prop :=
  ∀ (x : RegIdx) (s : State),
    (s.i.toNat + x.toNat ≤ 0x0FFF → ∃ t, exec (.stRegs x) s = .next t ∧
      (∀ k : RegIdx, k.toNat ≤ x.toNat → t.mem.read (s.i.toNat + k.toNat) = s.reg k) ∧
      KeepsBytesBut s.i.toNat (x.toNat + 1) s t ∧ KeepsAllBut [.mem] s t) ∧
    (s.i.toNat + x.toNat > 0x0FFF → ∃ t a, exec (.stRegs x) s = .next t ∧
      t.status = .faulted (.memoryOutOfBounds a) ∧ a.toNat = max s.i.toNat 0x1000 ∧ KeepsAllBut [.status] s t)

/-- Rule R131: V0 to Vx from I up, the registers above untouched, or a fault with nothing written; I is unchanged
(decision D19). -/
def Obligations.LdRegsLoadsTheRegisters : Prop :=
  ∀ (x : RegIdx) (s : State),
    (s.i.toNat + x.toNat ≤ 0x0FFF → ∃ t, exec (.ldRegs x) s = .next t ∧
      (∀ k : RegIdx, t.reg k = if k.toNat ≤ x.toNat then s.mem.read (s.i.toNat + k.toNat) else s.reg k) ∧
      KeepsAllBut [.v] s t) ∧
    (s.i.toNat + x.toNat > 0x0FFF → ∃ t a, exec (.ldRegs x) s = .next t ∧
      t.status = .faulted (.memoryOutOfBounds a) ∧ a.toNat = max s.i.toNat 0x1000 ∧ KeepsAllBut [.status] s t)

/-- Rules R45 and R51: a word stored by StRegs is what the next fetch at its address reads, big-endian, with no fence. -/
def Obligations.FetchSeesStoresAtOnce : Prop :=
  ∀ (x k : RegIdx) (s t : State), s.i.toNat + x.toNat ≤ 0x0FFF → k.toNat + 1 ≤ x.toNat →
    exec (.stRegs x) s = .next t →
    ∃ w, t.mem.readWord (s.i.toNat + k.toNat) = .ok w ∧
      w.toNat = 256 * (s.reg k).toNat + (s.reg (k + 1)).toNat

/-! ### Display -/

/-- Rule R140: every pixel clear, nothing else written, and `fb_changed` reported in every case. -/
def Obligations.ClsClearsEveryPixel : Prop :=
  decode 0x00E0 = .instr .cls ∧
  (∀ s : State, ∃ t, exec .cls s = .next t ∧ (∀ r c : Nat, t.fb.pixel r c = false) ∧ KeepsAllBut [.fb] s t) ∧
  (∀ s : State, s.pending = some .cls → fbChanged s = true)

/-- Rules R141 and R142, the loop against its closed form: every pixel is XORed with the sprite bit that falls on it,
clipped at the edges (decision D23), and VF is 1 exactly when a visible sprite bit lands on a set pixel. All n bytes
must be in range (decision D24); n = 0 draws nothing and clears VF. -/
def Obligations.DrwXorsTheSprite : Prop :=
  ∀ (x y : RegIdx) (n : Nibble) (s : State),
    (n.toNat = 0 ∨ s.i.toNat + n.toNat - 1 ≤ 0x0FFF) →
    ∃ t, exec (.drw x y n) s = .next t ∧
      (∀ r c : Nat, r < 32 → c < 64 → t.fb.pixel r c = (s.fb.pixel r c ^^ spriteBit s x y n r c)) ∧
      (Collides s x y n → t.reg 0xF#4 = 0x01) ∧ (¬ Collides s x y n → t.reg 0xF#4 = 0x00) ∧
      KeepsRegsBut [0xF#4] s t ∧ KeepsAllBut [.v, .fb] s t

/-- Rule R142's fault: a sprite byte out of range, drawn or clipped (decision D24), faults before any pixel or VF is
written. -/
def Obligations.DrwFaultsBeforeDrawing : Prop :=
  ∀ (x y : RegIdx) (n : Nibble) (s : State), n.toNat > 0 → s.i.toNat + n.toNat - 1 > 0x0FFF →
    ∃ t a, exec (.drw x y n) s = .next t ∧ t.status = .faulted (.memoryOutOfBounds a) ∧
      a.toNat = max s.i.toNat 0x1000 ∧ KeepsAllBut [.status] s t

/-- Vector S10 for all states: two equal draws cancel. On any buffer the second restores it; on an empty buffer the first
reports no collision, and the second reports one exactly when the first set a pixel (rule R142). -/
def Obligations.DrawingTwiceCancels : Prop :=
  ∀ (x y : RegIdx) (n : Nibble) (s t u : State), x ≠ 0xF#4 → y ≠ 0xF#4 →
    (n.toNat = 0 ∨ s.i.toNat + n.toNat - 1 ≤ 0x0FFF) →
    exec (.drw x y n) s = .next t → exec (.drw x y n) t = .next u →
    u.fb = s.fb ∧
    ((∀ r c : Nat, s.fb.pixel r c = false) →
      t.reg 0xF#4 = 0x00 ∧ (u.reg 0xF#4 = 0x01 ↔ ∃ r c : Nat, t.fb.pixel r c = true))

/-! ### Timers and keys -/

/-- Rules R150, R152 and R153 (the roles of the three words are decision D28). -/
def Obligations.TimerMoves : Prop :=
  ∀ (x : RegIdx) (s : State),
    decode ((0xF#4 ++ x) ++ 0x07#8) = .instr (.ldVxDt x) ∧ decode ((0xF#4 ++ x) ++ 0x15#8) = .instr (.ldDtVx x) ∧
    decode ((0xF#4 ++ x) ++ 0x18#8) = .instr (.ldStVx x) ∧
    (∃ t, exec (.ldVxDt x) s = .next t ∧ t.reg x = s.dt ∧ KeepsRegsBut [x] s t ∧ KeepsAllBut [.v] s t) ∧
    (∃ t, exec (.ldDtVx x) s = .next t ∧ t.dt = s.reg x ∧ KeepsAllBut [.dt] s t) ∧
    (∃ t, exec (.ldStVx x) s = .next t ∧ t.st = s.reg x ∧ KeepsAllBut [.st] s t)

/-- Rules R154 and R155: Skp skips exactly when the latch holds the key Vx names, Sknp exactly when it does not; a Vx
above 0x0F names no key. -/
def Obligations.KeySkips : Prop :=
  ∀ (x : RegIdx) (s : State),
    decode ((0xE#4 ++ x) ++ 0x9E#8) = .instr (.skp x) ∧ decode ((0xE#4 ++ x) ++ 0xA1#8) = .instr (.sknp x) ∧
    ((∃ k, s.key = some k ∧ k.toNat = (s.reg x).toNat) →
      ∃ t u, exec (.skp x) s = .next t ∧ t.pc = s.pc + 2 ∧ exec (.sknp x) s = .next u ∧ u.pc = s.pc ∧
        KeepsAllBut [.pc] s t ∧ KeepsAllBut [.pc] s u) ∧
    ((∀ k, s.key = some k → k.toNat ≠ (s.reg x).toNat) →
      ∃ t u, exec (.skp x) s = .next t ∧ t.pc = s.pc ∧ exec (.sknp x) s = .next u ∧ u.pc = s.pc + 2 ∧
        KeepsAllBut [.pc] s t ∧ KeepsAllBut [.pc] s u)

/-- Rule R151 at the execute phase: with a key in the latch LdVxKey takes it; with none it sets pc back to A and writes
nothing else (decision D15). -/
def Obligations.LdVxKeyTakesTheKey : Prop :=
  ∀ (x : RegIdx) (s : State),
    (∀ k, s.key = some k → ∃ t, exec (.ldVxKey x) s = .next t ∧ (t.reg x).toNat = k.toNat ∧
      KeepsRegsBut [x] s t ∧ KeepsAllBut [.v] s t) ∧
    (s.key = none → ∃ t, exec (.ldVxKey x) s = .next t ∧ t.pc + 2 = s.pc ∧ KeepsAllBut [.pc] s t)

/-- Rules R82, R151 and R183 at the level of Steps: while no key is down, a Step at an LdVxKey reports `awaiting_key` and
leaves the whole state as it was, so the same word is fetched again; once the host latches a key, the next Step completes
(decision D15). `awaiting_key` is reported at no other time. -/
def Obligations.KeyWaitRepeatsUntilAKey : Prop :=
  (∀ (s : State) (x : RegIdx), s.pending = some (.ldVxKey x) → s.key = none →
    step s = .next s ∧ awaitingKey s = true ∧
    ∀ k, ∃ t, step (s.setKey (some k)) = .next t ∧ (t.reg x).toNat = k.toNat ∧ t.pc = s.pc + 2 ∧
      awaitingKey (s.setKey (some k)) = false) ∧
  (∀ s : State, awaitingKey s = true → s.key = none ∧ ∃ x, s.pending = some (.ldVxKey x))

end
end

