-- ==== Sys2Proof/Laws/Display.lean ====
section
/-! SUPPORT. Reading a pixel after writing one, and what one plotted bit does. -/

namespace Sys2Proof.Machine

/-- Two buffers with the same pixels are equal (rule R18). -/
theorem Framebuffer.ext {f g : Framebuffer} (h : ∀ r c : Nat, r < 32 → c < 64 → f.pixel r c = g.pixel r c) : f = g := by
  apply Vector.ext; intro r hr
  apply Vector.ext; intro c hc
  have := h r c hr hc
  rwa [Framebuffer.pixel, Framebuffer.pixel, dif_pos ⟨hr, hc⟩, dif_pos ⟨hr, hc⟩] at this

/-- No pixel lies outside the grid. -/
theorem Framebuffer.pixel_outside (fb : Framebuffer) {r c : Nat} (h : ¬ (r < 32 ∧ c < 64)) : fb.pixel r c = false :=
  dif_neg h

@[simp] theorem Framebuffer.pixel_clear (r c : Nat) : Framebuffer.clear.pixel r c = false := by
  unfold Framebuffer.pixel
  split_ifs with h
  · simp [Framebuffer.clear]
  · rfl

theorem Framebuffer.pixel_setPixel (fb : Framebuffer) (r c : Nat) (b : Bool) (r' c' : Nat) :
    (fb.setPixel r c b).pixel r' c' =
      if r' = r ∧ c' = c ∧ r < 32 ∧ c < 64 then b else fb.pixel r' c' := by
  unfold Framebuffer.setPixel
  by_cases h : r < 32 ∧ c < 64
  · rw [dif_pos h]
    unfold Framebuffer.pixel
    by_cases h' : r' < 32 ∧ c' < 64
    · rw [dif_pos h', dif_pos h']
      by_cases hr : r = r'
      · subst hr
        by_cases hc : c = c'
        · subst hc; simp [h]
        · simp [hc, show ¬ c' = c from fun e => hc e.symm]
      · simp [hr, show ¬ r' = r from fun e => hr e.symm]
    · rw [dif_neg h', dif_neg h', if_neg (by omega)]
  · rw [dif_neg h, if_neg (by omega)]

/-- One plotted bit under the clipping convention: the pixel it lands on is XORed, the others stay (rule R142). -/
theorem Canvas.pixel_plot (cv : Canvas) (py px : Nat) (bit : Bool) (r c : Nat) :
    (cv.plot false py px bit).fb.pixel r c =
      if r = py ∧ c = px ∧ py < 32 ∧ px < 64 then (cv.fb.pixel r c ^^ bit) else cv.fb.pixel r c := by
  unfold Canvas.plot
  by_cases h : px > 63 ∨ py > 31
  · simp [h]; omega
  · cases bit
    · simp
    · simp only [Bool.false_eq_true, if_false, h, if_true, Framebuffer.pixel_setPixel, Bool.xor_true]
      by_cases h' : r = py ∧ c = px ∧ py < 32 ∧ px < 64
      · rw [if_pos h', if_pos h', h'.1, h'.2.1]
      · rw [if_neg h', if_neg h']

/-- One plotted bit hits when it is 1, visible, and on a set pixel (rule R142). -/
theorem Canvas.hit_plot (cv : Canvas) (py px : Nat) (bit : Bool) :
    (cv.plot false py px bit).hit = (cv.hit || (bit && cv.fb.pixel py px)) := by
  unfold Canvas.plot
  by_cases h : px > 63 ∨ py > 31
  · simp [h, Framebuffer.pixel_outside cv.fb (show ¬ (py < 32 ∧ px < 64) by omega)]
  · cases bit <;> simp [h]

end Sys2Proof.Machine
end

