-- ==== Sys2Proof/Laws/Encoding.lean ====
section
/-! SUPPORT. The fields of encoded words, words rebuilt from their fields, bytes and words, and well-formedness. -/

namespace Sys2Proof

@[simp] theorem Field.fits_reg (x : RegIdx) : (Field.reg x.toNat).fits = true := decide_eq_true x.isLt

@[simp] theorem Field.fits_imm8 (kk : Byte) : (Field.imm8 kk.toNat).fits = true := decide_eq_true kk.isLt

@[simp] theorem Field.fits_addr12 (nnn : Addr12) : (Field.addr12 nnn.toNat).fits = true := decide_eq_true nnn.isLt

@[simp] theorem Field.fits_height (n : Nibble) : (Field.height n.toNat).fits = true := decide_eq_true n.isLt

/-- Every term of `Instr` is well formed: its operands carry their widths in their types (rule R58). -/
theorem Instr.wellFormed_all (i : Instr) : i.WellFormed := by
  cases i <;> simp [Instr.WellFormed, Instr.fields, fieldsFit]

/-! ### The bits and the fields of an encoded word -/

section
variable (op x y n : Nibble) (kk : Byte) (nnn : Addr12) (i : Nat)

theorem getLsbD_encodeA :
    (encodeA op nnn).getLsbD i = if i < 12 then nnn.getLsbD i else op.getLsbD (i - 12) :=
  BitVec.getLsbD_append

theorem getLsbD_encodeXK :
    (encodeXK op x kk).getLsbD i =
      if i < 8 then kk.getLsbD i else if i < 12 then x.getLsbD (i - 8) else op.getLsbD (i - 12) := by
  have h1 : (encodeXK op x kk).getLsbD i = if i < 8 then kk.getLsbD i else (op ++ x).getLsbD (i - 8) :=
    BitVec.getLsbD_append
  rw [h1, BitVec.getLsbD_append]
  split_ifs <;> (try omega) <;> rfl

theorem getLsbD_encodeXYN :
    (encodeXYN op x y n).getLsbD i =
      if i < 4 then n.getLsbD i else if i < 8 then y.getLsbD (i - 4)
      else if i < 12 then x.getLsbD (i - 8) else op.getLsbD (i - 12) := by
  have h1 : (encodeXYN op x y n).getLsbD i = if i < 8 then (y ++ n).getLsbD i else (op ++ x).getLsbD (i - 8) :=
    BitVec.getLsbD_append
  rw [h1, BitVec.getLsbD_append, BitVec.getLsbD_append]
  split_ifs <;> (try omega) <;> rfl

@[simp] theorem opOf_encodeA : opOf (encodeA op nnn) = op := by
  apply BitVec.eq_of_getLsbD_eq; intro i h
  simp [opOf, getLsbD_encodeA, h]

@[simp] theorem nnnOf_encodeA : nnnOf (encodeA op nnn) = nnn := by
  apply BitVec.eq_of_getLsbD_eq; intro i h
  simp [nnnOf, getLsbD_encodeA, h]

@[simp] theorem opOf_encodeXK : opOf (encodeXK op x kk) = op := by
  apply BitVec.eq_of_getLsbD_eq; intro i h
  simp [opOf, getLsbD_encodeXK, h, show ¬ 12 + i < 8 by omega]

@[simp] theorem xOf_encodeXK : xOf (encodeXK op x kk) = x := by
  apply BitVec.eq_of_getLsbD_eq; intro i h
  simp [xOf, getLsbD_encodeXK, h, show 8 + i < 12 by omega]

@[simp] theorem kkOf_encodeXK : kkOf (encodeXK op x kk) = kk := by
  apply BitVec.eq_of_getLsbD_eq; intro i h
  simp [kkOf, getLsbD_encodeXK, h]

@[simp] theorem opOf_encodeXYN : opOf (encodeXYN op x y n) = op := by
  apply BitVec.eq_of_getLsbD_eq; intro i h
  simp [opOf, getLsbD_encodeXYN, h, show ¬ 12 + i < 8 by omega, show ¬ 12 + i < 4 by omega]

@[simp] theorem xOf_encodeXYN : xOf (encodeXYN op x y n) = x := by
  apply BitVec.eq_of_getLsbD_eq; intro i h
  simp [xOf, getLsbD_encodeXYN, h, show 8 + i < 12 by omega, show ¬ 8 + i < 4 by omega]

@[simp] theorem yOf_encodeXYN : yOf (encodeXYN op x y n) = y := by
  apply BitVec.eq_of_getLsbD_eq; intro i h
  simp [yOf, getLsbD_encodeXYN, h, show 4 + i < 8 by omega]

@[simp] theorem nOf_encodeXYN : nOf (encodeXYN op x y n) = n := by
  apply BitVec.eq_of_getLsbD_eq; intro i h
  simp [nOf, getLsbD_encodeXYN, h]

end

/-! ### A word is its fields -/

theorem encodeA_fields (w : Word) : encodeA (opOf w) (nnnOf w) = w := by
  apply BitVec.eq_of_getLsbD_eq; intro i h
  simp only [getLsbD_encodeA, opOf, nnnOf, BitVec.getLsbD_extractLsb']
  split_ifs with h1
  · simp [h1]
  · simp [show i - 12 < 4 by omega, show 12 + (i - 12) = i by omega]

theorem encodeXK_fields (w : Word) : encodeXK (opOf w) (xOf w) (kkOf w) = w := by
  apply BitVec.eq_of_getLsbD_eq; intro i h
  simp only [getLsbD_encodeXK, opOf, xOf, kkOf, BitVec.getLsbD_extractLsb']
  split_ifs with h1 h2
  · simp [h1]
  · simp [show i - 8 < 4 by omega, show 8 + (i - 8) = i by omega]
  · simp [show i - 12 < 4 by omega, show 12 + (i - 12) = i by omega]

theorem encodeXYN_fields (w : Word) : encodeXYN (opOf w) (xOf w) (yOf w) (nOf w) = w := by
  apply BitVec.eq_of_getLsbD_eq; intro i h
  simp only [getLsbD_encodeXYN, opOf, xOf, yOf, nOf, BitVec.getLsbD_extractLsb']
  split_ifs with h1 h2 h3
  · simp [h1]
  · simp [show i - 4 < 4 by omega, show 4 + (i - 4) = i by omega]
  · simp [show i - 8 < 4 by omega, show 8 + (i - 8) = i by omega]
  · simp [show i - 12 < 4 by omega, show 12 + (i - 12) = i by omega]

/-! ### Bytes and words (rules R45, R55) -/

theorem getLsbD_wordOfBytes (hi lo : Byte) (i : Nat) :
    (wordOfBytes hi lo).getLsbD i = if i < 8 then lo.getLsbD i else hi.getLsbD (i - 8) :=
  BitVec.getLsbD_append

@[simp] theorem wordOfBytes_bytes (w : Word) : wordOfBytes (hiByte w) (loByte w) = w := by
  apply BitVec.eq_of_getLsbD_eq; intro i h
  simp only [getLsbD_wordOfBytes, hiByte, loByte, BitVec.getLsbD_extractLsb']
  split_ifs with h1
  · simp [h1]
  · simp [show i - 8 < 8 by omega, show 8 + (i - 8) = i by omega]

@[simp] theorem hiByte_wordOfBytes (hi lo : Byte) : hiByte (wordOfBytes hi lo) = hi := by
  apply BitVec.eq_of_getLsbD_eq; intro i h; simp [hiByte, getLsbD_wordOfBytes, h]

@[simp] theorem loByte_wordOfBytes (hi lo : Byte) : loByte (wordOfBytes hi lo) = lo := by
  apply BitVec.eq_of_getLsbD_eq; intro i h; simp [loByte, getLsbD_wordOfBytes, h]

/-- The big-endian word as a number: the byte at the lower address counts 256 (rule R45). -/
theorem toNat_wordOfBytes (hi lo : Byte) : (wordOfBytes hi lo).toNat = 256 * hi.toNat + lo.toNat := by
  have h : (wordOfBytes hi lo).toNat = hi.toNat <<< 8 ||| lo.toNat := BitVec.toNat_append hi lo
  rw [h, ← Nat.shiftLeft_add_eq_or_of_lt lo.isLt, Nat.shiftLeft_eq]; omega

/-! ### The decoder -/

/-- A word is rejected under its own name (rule R59). -/
theorem decode_unrecognized {w u : Word} (h : decode w = .unrecognized u) : u = w := by
  simp only [decode, decodeFamily0, decodeLowZero, decodeFamily8, decodeFamilyE, decodeFamilyF] at h
  split at h <;> (try split at h) <;> (try split at h) <;> simp_all

/-- What the decoder makes of two bytes. -/
theorem decodeBytes_cons_cons (hi lo : Byte) (rest : List Byte) :
    decodeBytes (hi :: lo :: rest) =
      match decode (wordOfBytes hi lo) with
      | .instr i => .instr i rest
      | .unrecognized w => .unrecognized w rest := rfl

end Sys2Proof
end

