-- ==== Sys2Proof/Laws/Flags.lean ====
section
/-! SUPPORT. The results of the ALU and shift unit as numbers, and the operand forms as numbers. -/

namespace Sys2Proof.Machine

@[simp] theorem toNat_addByte (a b : Byte) : (addByte a b).toNat = (a.toNat + b.toNat) % 256 := by
  simp [addByte]

@[simp] theorem toNat_subByte (a b : Byte) :
    (subByte a b).toNat = if a.toNat ≥ b.toNat then a.toNat - b.toNat else 256 + a.toNat - b.toNat := by
  have := a.isLt; have := b.isLt
  unfold subByte
  split_ifs <;> simp <;> omega

@[simp] theorem toNat_shrByte (a : Byte) : (shrByte a).toNat = a.toNat / 2 := by
  have := a.isLt
  simp [shrByte]; omega

@[simp] theorem toNat_shlByte (a : Byte) : (shlByte a).toNat = 2 * a.toNat % 256 := by
  simp [shlByte]

@[simp] theorem toNat_addIndex (i : Word) (v : Byte) : (addIndex i v).toNat = (i.toNat + v.toNat) % 65536 := by
  simp [addIndex]

@[simp] theorem toNat_flagByte (c : Bool) : (flagByte c).toNat = if c then 1 else 0 := by cases c <;> rfl

@[simp] theorem carryOut_iff (a b : Byte) : carryOut a b = true ↔ a.toNat + b.toNat > 255 := decide_eq_true_iff

@[simp] theorem notBorrow_iff (a b : Byte) : notBorrow a b = true ↔ a.toNat ≥ b.toNat := decide_eq_true_iff

/-- The bit out at the low end is the remainder of the halving (rule R116). -/
theorem shrOut_iff (a : Byte) : shrOut a = true ↔ a.toNat % 2 = 1 := by
  unfold shrOut
  rw [BitVec.getLsbD, Nat.testBit_zero, decide_eq_true_iff]

/-- The bit out at the high end is the carry of the doubling (rule R118). -/
theorem shlOut_iff (a : Byte) : shlOut a = true ↔ a.toNat ≥ 128 := by
  have := a.isLt
  unfold shlOut
  rw [BitVec.getLsbD, Nat.testBit, bne_iff_ne, Nat.shiftRight_eq_div_pow]
  constructor
  · intro h; by_contra hlt
    exact h (by rw [show a.toNat / 2 ^ 7 = 0 by omega]; rfl)
  · intro h
    rw [show a.toNat / 2 ^ 7 = 1 by omega]; decide

@[simp] theorem toNat_zextAddr (nnn : Addr12) : (zextAddr nnn).toNat = nnn.toNat := by
  have := nnn.isLt
  simp [zextAddr]; omega

@[simp] theorem toNat_zextByte (b : Byte) : (zextByte b).toNat = b.toNat := by
  have := b.isLt
  simp [zextByte]; omega

@[simp] theorem toNat_zextKey (k : Nibble) : (zextKey k).toNat = k.toNat := by
  have := k.isLt
  simp [zextKey]; omega

/-- A key is pressed when the latch holds that very number (rule R156). -/
theorem keyPressed_iff (s : State) (b : Byte) :
    s.keyPressed b = true ↔ s.key.map BitVec.toNat = some b.toNat := by
  unfold State.keyPressed
  cases s.key with
  | none => simp
  | some k =>
    simp only [decide_eq_true_iff, Option.map_some, Option.some.injEq]
    rw [← toNat_zextKey, BitVec.toNat_inj]

@[simp] theorem length_decimalDigits (b : Byte) : (decimalDigits b).length = 3 := rfl

@[simp] theorem length_regsUpTo (s : State) (x : RegIdx) : (s.regsUpTo x).length = x.toNat + 1 := by
  have := x.isLt
  simp [State.regsUpTo]; omega

/-- Byte `k` of V0 to Vx is register k (rule R130). -/
theorem getD_regsUpTo (s : State) (x k : RegIdx) (h : k.toNat ≤ x.toNat) :
    (s.regsUpTo x).getD k.toNat 0 = s.reg k := by
  have := k.isLt
  simp [State.regsUpTo, State.reg, List.getD_eq_getElem?_getD, show k.toNat < x.toNat + 1 by omega,
    Vector.getElem?_eq_getElem k.isLt]

end Sys2Proof.Machine
end

