-- ==== Sys2Proof/Laws/Memory.lean ====
section
/-! SUPPORT. The laws of memory: a read after a write, the canonical form kept, and what the bounds check, the byte
lists and the word read do. -/

namespace Sys2Proof.Machine

/-! ### Cells -/

theorem Memory.read_insertCell (m : Memory) (a : Nat) (b : Byte) (a' : Nat) :
    (m.insertCell a b).read a' = if a' = a then b else m.read a' := by
  induction m with
  | nil => simp [Memory.insertCell, Memory.read]
  | cons c m ih =>
    obtain ⟨k, d⟩ := c
    unfold Memory.insertCell
    by_cases h1 : a < k
    · rw [if_pos h1]; rfl
    rw [if_neg h1]
    by_cases h2 : a = k
    · rw [if_pos h2]
      by_cases h : a' = a
      · simp [Memory.read, h]
      · simp [Memory.read, h, h2 ▸ h]
    · rw [if_neg h2, Memory.read, Memory.read, ih]
      by_cases h : a' = k
      · rw [if_pos h, if_pos h, if_neg (by omega)]
      · rw [if_neg h, if_neg h]

theorem Memory.read_filter (m : Memory) (a a' : Nat) :
    Memory.read (m.filter (fun c => c.1 ≠ a)) a' = if a' = a then Memory.blank a else m.read a' := by
  induction m with
  | nil => by_cases h : a' = a <;> simp [Memory.read, h]
  | cons c m ih =>
    obtain ⟨k, d⟩ := c
    by_cases hk : k = a
    · subst hk
      rw [List.filter_cons_of_neg (by simp), ih]
      by_cases h : a' = k <;> simp [Memory.read, h]
    · rw [List.filter_cons_of_pos (by simpa using hk)]
      simp only [Memory.read, ih]
      by_cases h : a' = k
      · have : a' ≠ a := by omega
        simp [h, hk]
      · simp [h]

/-- A read after a write gives the byte written; every other address reads as before (rules R39, R47). -/
@[simp] theorem Memory.read_write (m : Memory) (a : Nat) (b : Byte) (a' : Nat) :
    (m.write a b).read a' = if a' = a then b else m.read a' := by
  unfold Memory.write
  split_ifs with h1 h2 h2
  · rw [Memory.read_filter, if_pos h2, h1]
  · rw [Memory.read_filter, if_neg h2]
  · rw [Memory.read_insertCell, if_pos h2]
  · rw [Memory.read_insertCell, if_neg h2]

@[simp] theorem Memory.read_nil (a : Nat) : Memory.read [] a = Memory.blank a := rfl

/-! ### The canonical form -/

theorem Memory.mem_insertCell {m : Memory} {a : Nat} {b : Byte} {c : Host.Cell} (h : c ∈ m.insertCell a b) :
    c = (a, b) ∨ c ∈ m := by
  induction m with
  | nil => simpa [Memory.insertCell] using h
  | cons d m ih =>
    obtain ⟨k, e⟩ := d
    unfold Memory.insertCell at h
    split_ifs at h with h1 h2
    · simpa using h
    · rcases List.mem_cons.mp h with h | h
      · exact .inl h
      · exact .inr (List.mem_cons_of_mem _ h)
    · rcases List.mem_cons.mp h with h | h
      · exact .inr (h ▸ List.mem_cons_self)
      · exact (ih h).imp id (List.mem_cons_of_mem _)

theorem Memory.sorted_insertCell {m : Memory} (a : Nat) (b : Byte) (h : m.Pairwise (fun c d => c.1 < d.1)) :
    (m.insertCell a b).Pairwise (fun c d => c.1 < d.1) := by
  induction m with
  | nil => simp [Memory.insertCell]
  | cons c m ih =>
    obtain ⟨k, e⟩ := c
    have hp := List.pairwise_cons.mp h
    unfold Memory.insertCell
    split_ifs with h1 h2
    · refine List.pairwise_cons.mpr ⟨fun d hd => ?_, h⟩
      rcases List.mem_cons.mp hd with rfl | hd
      · exact h1
      · exact h1.trans (hp.1 d hd)
    · subst h2
      exact List.pairwise_cons.mpr ⟨fun d hd => hp.1 d hd, hp.2⟩
    · refine List.pairwise_cons.mpr ⟨fun d hd => ?_, ih hp.2⟩
      rcases Memory.mem_insertCell hd with rfl | hd
      · show k < a; omega
      · exact hp.1 d hd

/-- Writing an in-range address keeps the canonical form. -/
theorem Memory.wf_write {m : Memory} (h : m.wf) {a : Nat} (ha : a < 0x1000) (b : Byte) : (m.write a b).wf := by
  unfold Memory.write
  split_ifs with hb
  · exact ⟨h.1.sublist List.filter_sublist, fun c hc => h.2 c (List.mem_of_mem_filter hc)⟩
  · refine ⟨Memory.sorted_insertCell a b h.1, fun c hc => ?_⟩
    rcases Memory.mem_insertCell hc with rfl | hc
    · exact ⟨ha, hb⟩
    · exact h.2 c hc

/-- Two canonical memories that read alike are equal. -/
theorem Memory.ext_of_wf {m n : Memory} (hm : m.wf) (hn : n.wf) (h : ∀ a, m.read a = n.read a) : m = n := by
  have key : ∀ {m n : Memory}, m.wf → (∀ a, m.read a = n.read a) → ∀ c ∈ m, c.1 ∈ n.map Prod.fst := by
    intro m n hm h c hc
    by_contra hno
    have hr : ∀ {l : Memory} {a : Nat}, a ∉ l.map Prod.fst → l.read a = Memory.blank a := by
      intro l a hl
      induction l with
      | nil => rfl
      | cons d l ih =>
        obtain ⟨k, e⟩ := d
        simp only [List.map_cons, List.mem_cons, not_or] at hl
        rw [Memory.read, if_neg hl.1, ih hl.2]
    have hread : ∀ {l : Memory}, l.Pairwise (fun c d => c.1 < d.1) → ∀ c ∈ l, l.read c.1 = c.2 := by
      intro l hl c hc
      induction l with
      | nil => cases hc
      | cons d l ih =>
        obtain ⟨k, e⟩ := d
        have hp := List.pairwise_cons.mp hl
        rcases List.mem_cons.mp hc with rfl | hc
        · simp [Memory.read]
        · have := hp.1 c hc
          rw [Memory.read, if_neg (by simp at this; omega), ih hp.2 hc]
    exact (hm.2 c hc).2 (by rw [← hread hm.1 c hc, h, hr hno])
  have hread : ∀ {l : Memory}, l.Pairwise (fun c d => c.1 < d.1) → ∀ c ∈ l, l.read c.1 = c.2 := by
    intro l hl c hc
    induction l with
    | nil => cases hc
    | cons d l ih =>
      obtain ⟨k, e⟩ := d
      have hp := List.pairwise_cons.mp hl
      rcases List.mem_cons.mp hc with rfl | hc
      · simp [Memory.read]
      · have := hp.1 c hc
        rw [Memory.read, if_neg (by simp at this; omega), ih hp.2 hc]
  have sub : ∀ {m n : Memory}, m.wf → n.wf → (∀ a, m.read a = n.read a) → ∀ c ∈ m, c ∈ n := by
    intro m n hm hn h c hc
    obtain ⟨d, hd, he⟩ := List.mem_map.mp (key hm h c hc)
    have h1 := hread hm.1 c hc
    have h2 := hread hn.1 d hd
    rw [he, ← h, h1] at h2
    rwa [show c = d from Prod.ext he.symm h2]
  have nd : ∀ {l : Memory}, l.Pairwise (fun c d => c.1 < d.1) → l.Nodup :=
    fun hl => hl.imp (fun h e => by subst e; exact lt_irrefl _ h)
  have perm : m.Perm n := (List.perm_ext_iff_of_nodup (nd hm.1) (nd hn.1)).mpr
    (fun c => ⟨sub hm hn h c, sub hn hm (fun a => (h a).symm) c⟩)
  exact perm.eq_of_pairwise (fun a b _ _ h1 h2 => absurd h1 (by omega)) hm.1 hn.1

/-! ### Byte lists -/

/-- Storing a byte list: each stored address reads its byte, every other address as before (rules R45, R54). -/
theorem Memory.read_writeBytes (m : Memory) (base : Nat) (bs : List Byte) (a : Nat) :
    (m.writeBytes base bs).read a =
      if base ≤ a ∧ a < base + bs.length then bs.getD (a - base) 0 else m.read a := by
  induction bs generalizing m base with
  | nil => rw [if_neg (by simp)]; rfl
  | cons b bs ih =>
    rw [Memory.writeBytes, ih]
    simp only [List.length_cons, Memory.read_write]
    by_cases h : a = base
    · subst h; simp
    · by_cases hr : base + 1 ≤ a ∧ a < base + 1 + bs.length
      · rw [if_pos hr, if_pos (by omega), show a - base = a - (base + 1) + 1 by omega, List.getD_cons_succ]
      · rw [if_neg hr, if_neg h, if_neg (by omega)]

theorem Memory.wf_writeBytes {m : Memory} (h : m.wf) {base : Nat} {bs : List Byte}
    (hb : base + bs.length ≤ 0x1000) : (m.writeBytes base bs).wf := by
  induction bs generalizing m base with
  | nil => exact h
  | cons b bs ih =>
    simp only [List.length_cons] at hb
    exact ih (Memory.wf_write h (by omega) b) (by omega)

@[simp] theorem Memory.length_bytesFrom (m : Memory) (base n : Nat) : (m.bytesFrom base n).length = n := by
  induction n generalizing base with
  | zero => rfl
  | succ n ih => simp [Memory.bytesFrom, ih]

theorem Memory.getD_bytesFrom (m : Memory) (base n k : Nat) (h : k < n) :
    (m.bytesFrom base n).getD k 0 = m.read (base + k) := by
  induction n generalizing base k with
  | zero => omega
  | succ n ih =>
    cases k with
    | zero => simp [Memory.bytesFrom]
    | succ k => rw [Memory.bytesFrom, List.getD_cons_succ, ih _ _ (by omega)]; congr 1; omega

/-! ### The bounds check -/

/-- No fault exactly when every byte is in range, or there is none (rules R37, R41, R54). -/
theorem rangeFault_eq_none {base count : Nat} : rangeFault base count = none ↔ count = 0 ∨ base + count ≤ 0x1000 := by
  unfold rangeFault
  split_ifs with h
  · simp; omega
  · simp; omega

/-- The fault of a range that leaves memory: the lowest out-of-range address (rule R169). -/
theorem rangeFault_of_beyond {base count : Nat} (h0 : 0 < count) (h : 0x1000 < base + count) :
    rangeFault base count = some (.memoryOutOfBounds (BitVec.ofNat 16 (max base 0x1000))) := by
  unfold rangeFault
  rw [if_pos (by omega)]

/-- The bounds check has two answers. -/
theorem rangeFault_cases (base count : Nat) :
    (rangeFault base count = none ∧ (count = 0 ∨ base + count ≤ 0x1000)) ∨
    (rangeFault base count = some (.memoryOutOfBounds (BitVec.ofNat 16 (max base 0x1000))) ∧
      0 < count ∧ 0x1000 < base + count) := by
  unfold rangeFault
  split_ifs with h
  · right; exact ⟨rfl, by omega, by omega⟩
  · left; exact ⟨rfl, by omega⟩

theorem Memory.readRange_ok {base n : Nat} (m : Memory) (h : n = 0 ∨ base + n ≤ 0x1000) :
    m.readRange base n = .ok (m.bytesFrom base n) := by
  unfold Memory.readRange; rw [rangeFault_eq_none.mpr h]

theorem Memory.readRange_error {base n : Nat} (m : Memory) (h0 : 0 < n) (h : 0x1000 < base + n) :
    m.readRange base n = .error (.memoryOutOfBounds (BitVec.ofNat 16 (max base 0x1000))) := by
  unfold Memory.readRange; rw [rangeFault_of_beyond h0 h]

theorem Memory.writeRange_ok {base : Nat} {bs : List Byte} (m : Memory) (h : bs.length = 0 ∨ base + bs.length ≤ 0x1000) :
    m.writeRange base bs = .ok (m.writeBytes base bs) := by
  unfold Memory.writeRange; rw [rangeFault_eq_none.mpr h]

theorem Memory.writeRange_error {base : Nat} {bs : List Byte} (m : Memory) (h0 : 0 < bs.length)
    (h : 0x1000 < base + bs.length) :
    m.writeRange base bs = .error (.memoryOutOfBounds (BitVec.ofNat 16 (max base 0x1000))) := by
  unfold Memory.writeRange; rw [rangeFault_of_beyond h0 h]

theorem Memory.readWord_ok {a : Nat} (m : Memory) (h : a ≤ 0x0FFE) : m.readWord a = .ok (m.word a) := by
  unfold Memory.readWord; rw [rangeFault_eq_none.mpr (by omega)]

theorem Memory.readWord_error {a : Nat} (m : Memory) (h : 0x0FFE < a) :
    m.readWord a = .error (.memoryOutOfBounds (BitVec.ofNat 16 (max a 0x1000))) := by
  unfold Memory.readWord; rw [rangeFault_of_beyond (by omega) (by omega)]

/-! ### The reset image -/

/-- The font lies wholly below the program region (rule R36). -/
theorem fontBase_le : fontBase ≤ 0x1B0 := Nat.le_of_lt_succ Config.fontBase.isLt

@[simp] theorem Memory.blank_font {j : Nat} (h : j < 80) : Memory.blank (fontBase + j) = fontByte j := by
  have := fontBase_le
  unfold Memory.blank
  rw [if_neg (by simp [Config.progBase]; omega), if_pos (by simp [Config.fontSize]; omega)]
  congr 1; omega

theorem Memory.blank_of_not_font {a : Nat} (h : ¬ (fontBase ≤ a ∧ a < fontBase + 80)) :
    Memory.blank a = Config.memFill := by
  unfold Memory.blank
  split_ifs with h1 h2
  · rfl
  · exact absurd h2 h
  · rfl

end Sys2Proof.Machine
end

