-- ==== Sys2Proof/Laws/PerInstr.lean ====
section
/-! SUPPORT. Statements about every instruction as syntax: its word lies in its row of the opcode map (rule R60). -/

namespace Sys2Proof

/-- The fixed bits of a format-A word. -/
theorem encodeA_fixed (op : Nibble) (nnn : Addr12) : encodeA op nnn &&& 0xF000#16 = op ++ 0#12 := by
  rw [show (0xF000#16 : BitVec (4 + 12)) = 0xF#4 ++ 0x000#12 by decide, encodeA, BitVec.and_append]
  rw [show (0xF#4 : BitVec 4) = BitVec.allOnes 4 by decide, BitVec.and_allOnes]; simp

/-- The fixed bits of a format-XK word: the primary opcode. -/
theorem encodeXK_fixed (op x : Nibble) (kk : Byte) : encodeXK op x kk &&& 0xF000#16 = (op ++ 0#4) ++ 0#8 := by
  rw [show (0xF000#16 : BitVec (4 + 4 + 8)) = (0xF#4 ++ 0x0#4) ++ 0x00#8 by decide, encodeXK, BitVec.and_append,
    BitVec.and_append]
  rw [show (0xF#4 : BitVec 4) = BitVec.allOnes 4 by decide, BitVec.and_allOnes]; simp

/-- The fixed bits of a format-X word: the primary opcode and the low byte. -/
theorem encodeXK_fixed_low (op x : Nibble) (kk : Byte) : encodeXK op x kk &&& 0xF0FF#16 = (op ++ 0#4) ++ kk := by
  rw [show (0xF0FF#16 : BitVec (4 + 4 + 8)) = (0xF#4 ++ 0x0#4) ++ 0xFF#8 by decide, encodeXK, BitVec.and_append,
    BitVec.and_append]
  rw [show (0xF#4 : BitVec 4) = BitVec.allOnes 4 by decide, show (0xFF#8 : BitVec 8) = BitVec.allOnes 8 by decide,
    BitVec.and_allOnes, BitVec.and_allOnes]; simp

/-- The fixed bits of a format-XYN word: the primary opcode. -/
theorem encodeXYN_fixed (op x y n : Nibble) :
    encodeXYN op x y n &&& 0xF000#16 = (op ++ 0#4) ++ (0#4 ++ 0#4) := by
  rw [show (0xF000#16 : BitVec (4 + 4 + (4 + 4))) = (0xF#4 ++ 0x0#4) ++ (0x0#4 ++ 0x0#4) by decide, encodeXYN,
    BitVec.and_append, BitVec.and_append, BitVec.and_append]
  rw [show (0xF#4 : BitVec 4) = BitVec.allOnes 4 by decide, BitVec.and_allOnes]; simp

/-- The fixed bits of a format-XY word: the primary opcode and the low nibble. -/
theorem encodeXYN_fixed_low (op x y n : Nibble) :
    encodeXYN op x y n &&& 0xF00F#16 = (op ++ 0#4) ++ (0#4 ++ n) := by
  rw [show (0xF00F#16 : BitVec (4 + 4 + (4 + 4))) = (0xF#4 ++ 0x0#4) ++ (0x0#4 ++ 0xF#4) by decide, encodeXYN,
    BitVec.and_append, BitVec.and_append, BitVec.and_append]
  rw [show (0xF#4 : BitVec 4) = BitVec.allOnes 4 by decide, BitVec.and_allOnes, BitVec.and_allOnes]; simp

/-- The instruction's word has the fixed bits of its row and no others fixed (rule R60). -/
def Laws.EncodesItsRow.Statement (i : Instr) : Prop := encode i &&& i.row.mask = i.row.bits

theorem Laws.EncodesItsRow.cls :
    Laws.EncodesItsRow.Statement (.cls) := rfl

theorem Laws.EncodesItsRow.ret :
    Laws.EncodesItsRow.Statement (.ret) := rfl

theorem Laws.EncodesItsRow.jmp (nnn : Addr12) :
    Laws.EncodesItsRow.Statement (.jmp nnn) := (encodeA_fixed _ _).trans rfl

theorem Laws.EncodesItsRow.call (nnn : Addr12) :
    Laws.EncodesItsRow.Statement (.call nnn) := (encodeA_fixed _ _).trans rfl

theorem Laws.EncodesItsRow.seVx (vx : RegIdx) (value : Byte) :
    Laws.EncodesItsRow.Statement (.seVx vx value) := (encodeXK_fixed _ _ _).trans rfl

theorem Laws.EncodesItsRow.sneVx (vx : RegIdx) (value : Byte) :
    Laws.EncodesItsRow.Statement (.sneVx vx value) := (encodeXK_fixed _ _ _).trans rfl

theorem Laws.EncodesItsRow.seVxVy (vx : RegIdx) (vy : RegIdx) :
    Laws.EncodesItsRow.Statement (.seVxVy vx vy) := (encodeXYN_fixed_low _ _ _ _).trans rfl

theorem Laws.EncodesItsRow.ldVx (vx : RegIdx) (value : Byte) :
    Laws.EncodesItsRow.Statement (.ldVx vx value) := (encodeXK_fixed _ _ _).trans rfl

theorem Laws.EncodesItsRow.addVx (vx : RegIdx) (value : Byte) :
    Laws.EncodesItsRow.Statement (.addVx vx value) := (encodeXK_fixed _ _ _).trans rfl

theorem Laws.EncodesItsRow.ldVxVy (vx : RegIdx) (vy : RegIdx) :
    Laws.EncodesItsRow.Statement (.ldVxVy vx vy) := (encodeXYN_fixed_low _ _ _ _).trans rfl

theorem Laws.EncodesItsRow.or (vx : RegIdx) (vy : RegIdx) :
    Laws.EncodesItsRow.Statement (.or vx vy) := (encodeXYN_fixed_low _ _ _ _).trans rfl

theorem Laws.EncodesItsRow.and (vx : RegIdx) (vy : RegIdx) :
    Laws.EncodesItsRow.Statement (.and vx vy) := (encodeXYN_fixed_low _ _ _ _).trans rfl

theorem Laws.EncodesItsRow.xor (vx : RegIdx) (vy : RegIdx) :
    Laws.EncodesItsRow.Statement (.xor vx vy) := (encodeXYN_fixed_low _ _ _ _).trans rfl

theorem Laws.EncodesItsRow.add (vx : RegIdx) (vy : RegIdx) :
    Laws.EncodesItsRow.Statement (.add vx vy) := (encodeXYN_fixed_low _ _ _ _).trans rfl

theorem Laws.EncodesItsRow.sub (vx : RegIdx) (vy : RegIdx) :
    Laws.EncodesItsRow.Statement (.sub vx vy) := (encodeXYN_fixed_low _ _ _ _).trans rfl

theorem Laws.EncodesItsRow.shr (vx : RegIdx) (vy : RegIdx) :
    Laws.EncodesItsRow.Statement (.shr vx vy) := (encodeXYN_fixed_low _ _ _ _).trans rfl

theorem Laws.EncodesItsRow.subn (vx : RegIdx) (vy : RegIdx) :
    Laws.EncodesItsRow.Statement (.subn vx vy) := (encodeXYN_fixed_low _ _ _ _).trans rfl

theorem Laws.EncodesItsRow.shl (vx : RegIdx) (vy : RegIdx) :
    Laws.EncodesItsRow.Statement (.shl vx vy) := (encodeXYN_fixed_low _ _ _ _).trans rfl

theorem Laws.EncodesItsRow.sneVxVy (vx : RegIdx) (vy : RegIdx) :
    Laws.EncodesItsRow.Statement (.sneVxVy vx vy) := (encodeXYN_fixed_low _ _ _ _).trans rfl

theorem Laws.EncodesItsRow.ldI (nnn : Addr12) :
    Laws.EncodesItsRow.Statement (.ldI nnn) := (encodeA_fixed _ _).trans rfl

theorem Laws.EncodesItsRow.jmpV0 (nnn : Addr12) :
    Laws.EncodesItsRow.Statement (.jmpV0 nnn) := (encodeA_fixed _ _).trans rfl

theorem Laws.EncodesItsRow.rnd (vx : RegIdx) (value : Byte) :
    Laws.EncodesItsRow.Statement (.rnd vx value) := (encodeXK_fixed _ _ _).trans rfl

theorem Laws.EncodesItsRow.drw (vx : RegIdx) (vy : RegIdx) (n : Nibble) :
    Laws.EncodesItsRow.Statement (.drw vx vy n) := (encodeXYN_fixed _ _ _ _).trans rfl

theorem Laws.EncodesItsRow.skp (vx : RegIdx) :
    Laws.EncodesItsRow.Statement (.skp vx) := (encodeXK_fixed_low _ _ _).trans rfl

theorem Laws.EncodesItsRow.sknp (vx : RegIdx) :
    Laws.EncodesItsRow.Statement (.sknp vx) := (encodeXK_fixed_low _ _ _).trans rfl

theorem Laws.EncodesItsRow.ldVxDt (vx : RegIdx) :
    Laws.EncodesItsRow.Statement (.ldVxDt vx) := (encodeXK_fixed_low _ _ _).trans rfl

theorem Laws.EncodesItsRow.ldVxKey (vx : RegIdx) :
    Laws.EncodesItsRow.Statement (.ldVxKey vx) := (encodeXK_fixed_low _ _ _).trans rfl

theorem Laws.EncodesItsRow.ldDtVx (vx : RegIdx) :
    Laws.EncodesItsRow.Statement (.ldDtVx vx) := (encodeXK_fixed_low _ _ _).trans rfl

theorem Laws.EncodesItsRow.ldStVx (vx : RegIdx) :
    Laws.EncodesItsRow.Statement (.ldStVx vx) := (encodeXK_fixed_low _ _ _).trans rfl

theorem Laws.EncodesItsRow.addIVx (vx : RegIdx) :
    Laws.EncodesItsRow.Statement (.addIVx vx) := (encodeXK_fixed_low _ _ _).trans rfl

theorem Laws.EncodesItsRow.ldFVx (vx : RegIdx) :
    Laws.EncodesItsRow.Statement (.ldFVx vx) := (encodeXK_fixed_low _ _ _).trans rfl

theorem Laws.EncodesItsRow.ldBVx (vx : RegIdx) :
    Laws.EncodesItsRow.Statement (.ldBVx vx) := (encodeXK_fixed_low _ _ _).trans rfl

theorem Laws.EncodesItsRow.stRegs (vx : RegIdx) :
    Laws.EncodesItsRow.Statement (.stRegs vx) := (encodeXK_fixed_low _ _ _).trans rfl

theorem Laws.EncodesItsRow.ldRegs (vx : RegIdx) :
    Laws.EncodesItsRow.Statement (.ldRegs vx) := (encodeXK_fixed_low _ _ _).trans rfl

end Sys2Proof
end

