-- ==== Sys2Proof/Laws/State.lean ====
section
/-! SUPPORT. One lemma per field per update of State, and reading a register after each update. -/

namespace Sys2Proof.Machine

variable (s : State)

@[simp] theorem State.setReg_v (x : RegIdx) (b : Byte) : (s.setReg x b).v = s.v.set x.toNat b x.isLt := rfl
@[simp] theorem State.setReg_i (x : RegIdx) (b : Byte) : (s.setReg x b).i = s.i := rfl
@[simp] theorem State.setReg_pc (x : RegIdx) (b : Byte) : (s.setReg x b).pc = s.pc := rfl
@[simp] theorem State.setReg_sp (x : RegIdx) (b : Byte) : (s.setReg x b).sp = s.sp := rfl
@[simp] theorem State.setReg_stack (x : RegIdx) (b : Byte) : (s.setReg x b).stack = s.stack := rfl
@[simp] theorem State.setReg_dt (x : RegIdx) (b : Byte) : (s.setReg x b).dt = s.dt := rfl
@[simp] theorem State.setReg_st (x : RegIdx) (b : Byte) : (s.setReg x b).st = s.st := rfl
@[simp] theorem State.setReg_fb (x : RegIdx) (b : Byte) : (s.setReg x b).fb = s.fb := rfl
@[simp] theorem State.setReg_mem (x : RegIdx) (b : Byte) : (s.setReg x b).mem = s.mem := rfl
@[simp] theorem State.setReg_key (x : RegIdx) (b : Byte) : (s.setReg x b).key = s.key := rfl
@[simp] theorem State.setReg_status (x : RegIdx) (b : Byte) : (s.setReg x b).status = s.status := rfl
@[simp] theorem State.setReg_rndDraws (x : RegIdx) (b : Byte) : (s.setReg x b).rndDraws = s.rndDraws := rfl

@[simp] theorem State.setI_v (w : Word) : (s.setI w).v = s.v := rfl
@[simp] theorem State.setI_i (w : Word) : (s.setI w).i = w := rfl
@[simp] theorem State.setI_pc (w : Word) : (s.setI w).pc = s.pc := rfl
@[simp] theorem State.setI_sp (w : Word) : (s.setI w).sp = s.sp := rfl
@[simp] theorem State.setI_stack (w : Word) : (s.setI w).stack = s.stack := rfl
@[simp] theorem State.setI_dt (w : Word) : (s.setI w).dt = s.dt := rfl
@[simp] theorem State.setI_st (w : Word) : (s.setI w).st = s.st := rfl
@[simp] theorem State.setI_fb (w : Word) : (s.setI w).fb = s.fb := rfl
@[simp] theorem State.setI_mem (w : Word) : (s.setI w).mem = s.mem := rfl
@[simp] theorem State.setI_key (w : Word) : (s.setI w).key = s.key := rfl
@[simp] theorem State.setI_status (w : Word) : (s.setI w).status = s.status := rfl
@[simp] theorem State.setI_rndDraws (w : Word) : (s.setI w).rndDraws = s.rndDraws := rfl

@[simp] theorem State.setPc_v (w : Word) : (s.setPc w).v = s.v := rfl
@[simp] theorem State.setPc_i (w : Word) : (s.setPc w).i = s.i := rfl
@[simp] theorem State.setPc_pc (w : Word) : (s.setPc w).pc = w := rfl
@[simp] theorem State.setPc_sp (w : Word) : (s.setPc w).sp = s.sp := rfl
@[simp] theorem State.setPc_stack (w : Word) : (s.setPc w).stack = s.stack := rfl
@[simp] theorem State.setPc_dt (w : Word) : (s.setPc w).dt = s.dt := rfl
@[simp] theorem State.setPc_st (w : Word) : (s.setPc w).st = s.st := rfl
@[simp] theorem State.setPc_fb (w : Word) : (s.setPc w).fb = s.fb := rfl
@[simp] theorem State.setPc_mem (w : Word) : (s.setPc w).mem = s.mem := rfl
@[simp] theorem State.setPc_key (w : Word) : (s.setPc w).key = s.key := rfl
@[simp] theorem State.setPc_status (w : Word) : (s.setPc w).status = s.status := rfl
@[simp] theorem State.setPc_rndDraws (w : Word) : (s.setPc w).rndDraws = s.rndDraws := rfl

@[simp] theorem State.advance_v : (s.advance).v = s.v := rfl
@[simp] theorem State.advance_i : (s.advance).i = s.i := rfl
@[simp] theorem State.advance_pc : (s.advance).pc = s.pc + 2#16 := rfl
@[simp] theorem State.advance_sp : (s.advance).sp = s.sp := rfl
@[simp] theorem State.advance_stack : (s.advance).stack = s.stack := rfl
@[simp] theorem State.advance_dt : (s.advance).dt = s.dt := rfl
@[simp] theorem State.advance_st : (s.advance).st = s.st := rfl
@[simp] theorem State.advance_fb : (s.advance).fb = s.fb := rfl
@[simp] theorem State.advance_mem : (s.advance).mem = s.mem := rfl
@[simp] theorem State.advance_key : (s.advance).key = s.key := rfl
@[simp] theorem State.advance_status : (s.advance).status = s.status := rfl
@[simp] theorem State.advance_rndDraws : (s.advance).rndDraws = s.rndDraws := rfl

@[simp] theorem State.setDt_v (b : Byte) : (s.setDt b).v = s.v := rfl
@[simp] theorem State.setDt_i (b : Byte) : (s.setDt b).i = s.i := rfl
@[simp] theorem State.setDt_pc (b : Byte) : (s.setDt b).pc = s.pc := rfl
@[simp] theorem State.setDt_sp (b : Byte) : (s.setDt b).sp = s.sp := rfl
@[simp] theorem State.setDt_stack (b : Byte) : (s.setDt b).stack = s.stack := rfl
@[simp] theorem State.setDt_dt (b : Byte) : (s.setDt b).dt = b := rfl
@[simp] theorem State.setDt_st (b : Byte) : (s.setDt b).st = s.st := rfl
@[simp] theorem State.setDt_fb (b : Byte) : (s.setDt b).fb = s.fb := rfl
@[simp] theorem State.setDt_mem (b : Byte) : (s.setDt b).mem = s.mem := rfl
@[simp] theorem State.setDt_key (b : Byte) : (s.setDt b).key = s.key := rfl
@[simp] theorem State.setDt_status (b : Byte) : (s.setDt b).status = s.status := rfl
@[simp] theorem State.setDt_rndDraws (b : Byte) : (s.setDt b).rndDraws = s.rndDraws := rfl

@[simp] theorem State.setSt_v (b : Byte) : (s.setSt b).v = s.v := rfl
@[simp] theorem State.setSt_i (b : Byte) : (s.setSt b).i = s.i := rfl
@[simp] theorem State.setSt_pc (b : Byte) : (s.setSt b).pc = s.pc := rfl
@[simp] theorem State.setSt_sp (b : Byte) : (s.setSt b).sp = s.sp := rfl
@[simp] theorem State.setSt_stack (b : Byte) : (s.setSt b).stack = s.stack := rfl
@[simp] theorem State.setSt_dt (b : Byte) : (s.setSt b).dt = s.dt := rfl
@[simp] theorem State.setSt_st (b : Byte) : (s.setSt b).st = b := rfl
@[simp] theorem State.setSt_fb (b : Byte) : (s.setSt b).fb = s.fb := rfl
@[simp] theorem State.setSt_mem (b : Byte) : (s.setSt b).mem = s.mem := rfl
@[simp] theorem State.setSt_key (b : Byte) : (s.setSt b).key = s.key := rfl
@[simp] theorem State.setSt_status (b : Byte) : (s.setSt b).status = s.status := rfl
@[simp] theorem State.setSt_rndDraws (b : Byte) : (s.setSt b).rndDraws = s.rndDraws := rfl

@[simp] theorem State.setMem_v (m : Memory) : (s.setMem m).v = s.v := rfl
@[simp] theorem State.setMem_i (m : Memory) : (s.setMem m).i = s.i := rfl
@[simp] theorem State.setMem_pc (m : Memory) : (s.setMem m).pc = s.pc := rfl
@[simp] theorem State.setMem_sp (m : Memory) : (s.setMem m).sp = s.sp := rfl
@[simp] theorem State.setMem_stack (m : Memory) : (s.setMem m).stack = s.stack := rfl
@[simp] theorem State.setMem_dt (m : Memory) : (s.setMem m).dt = s.dt := rfl
@[simp] theorem State.setMem_st (m : Memory) : (s.setMem m).st = s.st := rfl
@[simp] theorem State.setMem_fb (m : Memory) : (s.setMem m).fb = s.fb := rfl
@[simp] theorem State.setMem_mem (m : Memory) : (s.setMem m).mem = m := rfl
@[simp] theorem State.setMem_key (m : Memory) : (s.setMem m).key = s.key := rfl
@[simp] theorem State.setMem_status (m : Memory) : (s.setMem m).status = s.status := rfl
@[simp] theorem State.setMem_rndDraws (m : Memory) : (s.setMem m).rndDraws = s.rndDraws := rfl

@[simp] theorem State.setFb_v (fb : Framebuffer) : (s.setFb fb).v = s.v := rfl
@[simp] theorem State.setFb_i (fb : Framebuffer) : (s.setFb fb).i = s.i := rfl
@[simp] theorem State.setFb_pc (fb : Framebuffer) : (s.setFb fb).pc = s.pc := rfl
@[simp] theorem State.setFb_sp (fb : Framebuffer) : (s.setFb fb).sp = s.sp := rfl
@[simp] theorem State.setFb_stack (fb : Framebuffer) : (s.setFb fb).stack = s.stack := rfl
@[simp] theorem State.setFb_dt (fb : Framebuffer) : (s.setFb fb).dt = s.dt := rfl
@[simp] theorem State.setFb_st (fb : Framebuffer) : (s.setFb fb).st = s.st := rfl
@[simp] theorem State.setFb_fb (fb : Framebuffer) : (s.setFb fb).fb = fb := rfl
@[simp] theorem State.setFb_mem (fb : Framebuffer) : (s.setFb fb).mem = s.mem := rfl
@[simp] theorem State.setFb_key (fb : Framebuffer) : (s.setFb fb).key = s.key := rfl
@[simp] theorem State.setFb_status (fb : Framebuffer) : (s.setFb fb).status = s.status := rfl
@[simp] theorem State.setFb_rndDraws (fb : Framebuffer) : (s.setFb fb).rndDraws = s.rndDraws := rfl

@[simp] theorem State.drawn_v : (s.drawn).v = s.v := rfl
@[simp] theorem State.drawn_i : (s.drawn).i = s.i := rfl
@[simp] theorem State.drawn_pc : (s.drawn).pc = s.pc := rfl
@[simp] theorem State.drawn_sp : (s.drawn).sp = s.sp := rfl
@[simp] theorem State.drawn_stack : (s.drawn).stack = s.stack := rfl
@[simp] theorem State.drawn_dt : (s.drawn).dt = s.dt := rfl
@[simp] theorem State.drawn_st : (s.drawn).st = s.st := rfl
@[simp] theorem State.drawn_fb : (s.drawn).fb = s.fb := rfl
@[simp] theorem State.drawn_mem : (s.drawn).mem = s.mem := rfl
@[simp] theorem State.drawn_key : (s.drawn).key = s.key := rfl
@[simp] theorem State.drawn_status : (s.drawn).status = s.status := rfl
@[simp] theorem State.drawn_rndDraws : (s.drawn).rndDraws = s.rndDraws + 1 := rfl

@[simp] theorem State.raise_v (f : FaultKind) : (s.raise f).v = s.v := rfl
@[simp] theorem State.raise_i (f : FaultKind) : (s.raise f).i = s.i := rfl
@[simp] theorem State.raise_pc (f : FaultKind) : (s.raise f).pc = s.pc := rfl
@[simp] theorem State.raise_sp (f : FaultKind) : (s.raise f).sp = s.sp := rfl
@[simp] theorem State.raise_stack (f : FaultKind) : (s.raise f).stack = s.stack := rfl
@[simp] theorem State.raise_dt (f : FaultKind) : (s.raise f).dt = s.dt := rfl
@[simp] theorem State.raise_st (f : FaultKind) : (s.raise f).st = s.st := rfl
@[simp] theorem State.raise_fb (f : FaultKind) : (s.raise f).fb = s.fb := rfl
@[simp] theorem State.raise_mem (f : FaultKind) : (s.raise f).mem = s.mem := rfl
@[simp] theorem State.raise_key (f : FaultKind) : (s.raise f).key = s.key := rfl
@[simp] theorem State.raise_status (f : FaultKind) : (s.raise f).status = .faulted f := rfl
@[simp] theorem State.raise_rndDraws (f : FaultKind) : (s.raise f).rndDraws = s.rndDraws := rfl

@[simp] theorem State.setKey_v (k : Option Nibble) : (s.setKey k).v = s.v := rfl
@[simp] theorem State.setKey_i (k : Option Nibble) : (s.setKey k).i = s.i := rfl
@[simp] theorem State.setKey_pc (k : Option Nibble) : (s.setKey k).pc = s.pc := rfl
@[simp] theorem State.setKey_sp (k : Option Nibble) : (s.setKey k).sp = s.sp := rfl
@[simp] theorem State.setKey_stack (k : Option Nibble) : (s.setKey k).stack = s.stack := rfl
@[simp] theorem State.setKey_dt (k : Option Nibble) : (s.setKey k).dt = s.dt := rfl
@[simp] theorem State.setKey_st (k : Option Nibble) : (s.setKey k).st = s.st := rfl
@[simp] theorem State.setKey_fb (k : Option Nibble) : (s.setKey k).fb = s.fb := rfl
@[simp] theorem State.setKey_mem (k : Option Nibble) : (s.setKey k).mem = s.mem := rfl
@[simp] theorem State.setKey_key (k : Option Nibble) : (s.setKey k).key = k := rfl
@[simp] theorem State.setKey_status (k : Option Nibble) : (s.setKey k).status = s.status := rfl
@[simp] theorem State.setKey_rndDraws (k : Option Nibble) : (s.setKey k).rndDraws = s.rndDraws := rfl

/-- Reading a register after writing one (rule R10). -/
@[simp] theorem State.reg_setReg (x y : RegIdx) (b : Byte) :
    (s.setReg x b).reg y = if y = x then b else s.reg y := by
  unfold State.reg State.setReg
  by_cases h : y = x
  · subst h; simp
  · have : x.toNat ≠ y.toNat := fun e => h (BitVec.eq_of_toNat_eq e.symm)
    simp [h, this]

@[simp] theorem State.reg_setI (w : Word) (y : RegIdx) : (s.setI w).reg y = s.reg y := rfl
@[simp] theorem State.reg_setPc (w : Word) (y : RegIdx) : (s.setPc w).reg y = s.reg y := rfl
@[simp] theorem State.reg_advance (y : RegIdx) : (s.advance).reg y = s.reg y := rfl
@[simp] theorem State.reg_setDt (b : Byte) (y : RegIdx) : (s.setDt b).reg y = s.reg y := rfl
@[simp] theorem State.reg_setSt (b : Byte) (y : RegIdx) : (s.setSt b).reg y = s.reg y := rfl
@[simp] theorem State.reg_setMem (m : Memory) (y : RegIdx) : (s.setMem m).reg y = s.reg y := rfl
@[simp] theorem State.reg_setFb (fb : Framebuffer) (y : RegIdx) : (s.setFb fb).reg y = s.reg y := rfl
@[simp] theorem State.reg_drawn (y : RegIdx) : (s.drawn).reg y = s.reg y := rfl
@[simp] theorem State.reg_raise (f : FaultKind) (y : RegIdx) : (s.raise f).reg y = s.reg y := rfl
@[simp] theorem State.reg_setKey (k : Option Nibble) (y : RegIdx) : (s.setKey k).reg y = s.reg y := rfl

@[simp] theorem State.setFlag_i (c : Bool) : (s.setFlag c).i = s.i := rfl
@[simp] theorem State.setRegThenFlag_i (x : RegIdx) (r : Byte) (c : Bool) :
    (s.setRegThenFlag x r c).i = s.i := rfl
@[simp] theorem State.setFlag_pc (c : Bool) : (s.setFlag c).pc = s.pc := rfl
@[simp] theorem State.setRegThenFlag_pc (x : RegIdx) (r : Byte) (c : Bool) :
    (s.setRegThenFlag x r c).pc = s.pc := rfl
@[simp] theorem State.setFlag_sp (c : Bool) : (s.setFlag c).sp = s.sp := rfl
@[simp] theorem State.setRegThenFlag_sp (x : RegIdx) (r : Byte) (c : Bool) :
    (s.setRegThenFlag x r c).sp = s.sp := rfl
@[simp] theorem State.setFlag_stack (c : Bool) : (s.setFlag c).stack = s.stack := rfl
@[simp] theorem State.setRegThenFlag_stack (x : RegIdx) (r : Byte) (c : Bool) :
    (s.setRegThenFlag x r c).stack = s.stack := rfl
@[simp] theorem State.setFlag_dt (c : Bool) : (s.setFlag c).dt = s.dt := rfl
@[simp] theorem State.setRegThenFlag_dt (x : RegIdx) (r : Byte) (c : Bool) :
    (s.setRegThenFlag x r c).dt = s.dt := rfl
@[simp] theorem State.setFlag_st (c : Bool) : (s.setFlag c).st = s.st := rfl
@[simp] theorem State.setRegThenFlag_st (x : RegIdx) (r : Byte) (c : Bool) :
    (s.setRegThenFlag x r c).st = s.st := rfl
@[simp] theorem State.setFlag_fb (c : Bool) : (s.setFlag c).fb = s.fb := rfl
@[simp] theorem State.setRegThenFlag_fb (x : RegIdx) (r : Byte) (c : Bool) :
    (s.setRegThenFlag x r c).fb = s.fb := rfl
@[simp] theorem State.setFlag_mem (c : Bool) : (s.setFlag c).mem = s.mem := rfl
@[simp] theorem State.setRegThenFlag_mem (x : RegIdx) (r : Byte) (c : Bool) :
    (s.setRegThenFlag x r c).mem = s.mem := rfl
@[simp] theorem State.setFlag_key (c : Bool) : (s.setFlag c).key = s.key := rfl
@[simp] theorem State.setRegThenFlag_key (x : RegIdx) (r : Byte) (c : Bool) :
    (s.setRegThenFlag x r c).key = s.key := rfl
@[simp] theorem State.setFlag_status (c : Bool) : (s.setFlag c).status = s.status := rfl
@[simp] theorem State.setRegThenFlag_status (x : RegIdx) (r : Byte) (c : Bool) :
    (s.setRegThenFlag x r c).status = s.status := rfl
@[simp] theorem State.setFlag_rndDraws (c : Bool) : (s.setFlag c).rndDraws = s.rndDraws := rfl
@[simp] theorem State.setRegThenFlag_rndDraws (x : RegIdx) (r : Byte) (c : Bool) :
    (s.setRegThenFlag x r c).rndDraws = s.rndDraws := rfl

@[simp] theorem State.reg_setFlag (c : Bool) (y : RegIdx) :
    (s.setFlag c).reg y = if y = flagReg then flagByte c else s.reg y := by simp [State.setFlag]

/-- VF is the flag, whatever the destination is; the destination holds the result unless it is VF (rule R114). -/
@[simp] theorem State.reg_setRegThenFlag (x : RegIdx) (r : Byte) (c : Bool) (y : RegIdx) :
    (s.setRegThenFlag x r c).reg y = if y = flagReg then flagByte c else if y = x then r else s.reg y := by
  simp [State.setRegThenFlag]

@[simp] theorem State.skipIf_v (c : Bool) : (s.skipIf c).v = s.v := by cases c <;> rfl
@[simp] theorem State.skipIf_i (c : Bool) : (s.skipIf c).i = s.i := by cases c <;> rfl
@[simp] theorem State.skipIf_pc (c : Bool) : (s.skipIf c).pc = if c then s.pc + 2#16 else s.pc := by
  cases c <;> rfl
@[simp] theorem State.skipIf_sp (c : Bool) : (s.skipIf c).sp = s.sp := by cases c <;> rfl
@[simp] theorem State.skipIf_stack (c : Bool) : (s.skipIf c).stack = s.stack := by cases c <;> rfl
@[simp] theorem State.skipIf_dt (c : Bool) : (s.skipIf c).dt = s.dt := by cases c <;> rfl
@[simp] theorem State.skipIf_st (c : Bool) : (s.skipIf c).st = s.st := by cases c <;> rfl
@[simp] theorem State.skipIf_fb (c : Bool) : (s.skipIf c).fb = s.fb := by cases c <;> rfl
@[simp] theorem State.skipIf_mem (c : Bool) : (s.skipIf c).mem = s.mem := by cases c <;> rfl
@[simp] theorem State.skipIf_key (c : Bool) : (s.skipIf c).key = s.key := by cases c <;> rfl
@[simp] theorem State.skipIf_status (c : Bool) : (s.skipIf c).status = s.status := by cases c <;> rfl
@[simp] theorem State.skipIf_rndDraws (c : Bool) : (s.skipIf c).rndDraws = s.rndDraws := by cases c <;> rfl
@[simp] theorem State.reg_skipIf (c : Bool) (y : RegIdx) : (s.skipIf c).reg y = s.reg y := by cases c <;> rfl

@[simp] theorem State.loadRegs_i (k : Nat) (bs : List Byte) : (s.loadRegs k bs).i = s.i := by
  induction bs generalizing s k with
  | nil => rfl
  | cons b bs ih => simp [State.loadRegs, ih]
@[simp] theorem State.loadRegs_pc (k : Nat) (bs : List Byte) : (s.loadRegs k bs).pc = s.pc := by
  induction bs generalizing s k with
  | nil => rfl
  | cons b bs ih => simp [State.loadRegs, ih]
@[simp] theorem State.loadRegs_sp (k : Nat) (bs : List Byte) : (s.loadRegs k bs).sp = s.sp := by
  induction bs generalizing s k with
  | nil => rfl
  | cons b bs ih => simp [State.loadRegs, ih]
@[simp] theorem State.loadRegs_stack (k : Nat) (bs : List Byte) : (s.loadRegs k bs).stack = s.stack := by
  induction bs generalizing s k with
  | nil => rfl
  | cons b bs ih => simp [State.loadRegs, ih]
@[simp] theorem State.loadRegs_dt (k : Nat) (bs : List Byte) : (s.loadRegs k bs).dt = s.dt := by
  induction bs generalizing s k with
  | nil => rfl
  | cons b bs ih => simp [State.loadRegs, ih]
@[simp] theorem State.loadRegs_st (k : Nat) (bs : List Byte) : (s.loadRegs k bs).st = s.st := by
  induction bs generalizing s k with
  | nil => rfl
  | cons b bs ih => simp [State.loadRegs, ih]
@[simp] theorem State.loadRegs_fb (k : Nat) (bs : List Byte) : (s.loadRegs k bs).fb = s.fb := by
  induction bs generalizing s k with
  | nil => rfl
  | cons b bs ih => simp [State.loadRegs, ih]
@[simp] theorem State.loadRegs_mem (k : Nat) (bs : List Byte) : (s.loadRegs k bs).mem = s.mem := by
  induction bs generalizing s k with
  | nil => rfl
  | cons b bs ih => simp [State.loadRegs, ih]
@[simp] theorem State.loadRegs_key (k : Nat) (bs : List Byte) : (s.loadRegs k bs).key = s.key := by
  induction bs generalizing s k with
  | nil => rfl
  | cons b bs ih => simp [State.loadRegs, ih]
@[simp] theorem State.loadRegs_status (k : Nat) (bs : List Byte) : (s.loadRegs k bs).status = s.status := by
  induction bs generalizing s k with
  | nil => rfl
  | cons b bs ih => simp [State.loadRegs, ih]
@[simp] theorem State.loadRegs_rndDraws (k : Nat) (bs : List Byte) : (s.loadRegs k bs).rndDraws = s.rndDraws := by
  induction bs generalizing s k with
  | nil => rfl
  | cons b bs ih => simp [State.loadRegs, ih]

/-- Loading bytes into V[k], V[k+1], ...: register `y` gets its byte when there is one for it (rule R131). -/
theorem State.reg_loadRegs (k : Nat) (bs : List Byte) (h : k + bs.length ≤ 16) (y : RegIdx) :
    (s.loadRegs k bs).reg y =
      if k ≤ y.toNat ∧ y.toNat < k + bs.length then bs.getD (y.toNat - k) 0 else s.reg y := by
  induction bs generalizing s k with
  | nil => rw [if_neg (by simp)]; rfl
  | cons b bs ih =>
    simp only [List.length_cons] at h ⊢
    rw [State.loadRegs, ih _ _ (by omega)]
    have hk : (BitVec.ofNat 4 k).toNat = k := by simp; omega
    by_cases hy : y = BitVec.ofNat 4 k
    · have : y.toNat = k := by rw [hy, hk]
      simp [hy, hk]
    · have : y.toNat ≠ k := fun e => hy (BitVec.eq_of_toNat_eq (by rw [e, hk]))
      simp only [State.reg_setReg, if_neg hy]
      by_cases hr : k + 1 ≤ y.toNat ∧ y.toNat < k + 1 + bs.length
      · rw [if_pos hr, if_pos (by omega), show y.toNat - k = y.toNat - (k + 1) + 1 by omega, List.getD_cons_succ]
      · rw [if_neg hr, if_neg (by omega)]

end Sys2Proof.Machine
end

