-- ==== Sys2Proof/Laws/Step.lean ====
section
/-! SUPPORT. What the shared operations answer (the stack, `orRaise`, `fetch`, `pending`) and what a Step can do. -/

namespace Sys2Proof.Machine

variable (s : State)

@[simp] theorem State.orRaise_ok (t : State) : s.orRaise (.ok t) = .next t := rfl

@[simp] theorem State.orRaise_error (f : FaultKind) : s.orRaise (.error f) = .next (s.raise f) := rfl

/-- Ending an instruction answers a next state: the state it made, or the fault raised on the one it began in. -/
theorem State.orRaise_cases {s t : State} {r : Except FaultKind State} (h : s.orRaise r = .next t) :
    r = .ok t ∨ ∃ f, r = .error f ∧ t = s.raise f := by
  cases r with
  | ok u => left; simpa using h
  | error f => right; exact ⟨f, rfl, by simpa using h.symm⟩

/-! ### The call stack -/

/-- A push with room (rule R92). -/
theorem State.pushReturn_ok (h : s.sp.val < 16) :
    s.pushReturn = .ok { s with sp := ⟨s.sp.val + 1, by omega⟩, stack := s.stack.set s.sp.val s.pc h } := dif_pos h

/-- A push on a full stack (rule R170). -/
theorem State.pushReturn_error (h : s.sp = 16) : s.pushReturn = .error .stackOverflow :=
  dif_neg (by rw [h]; decide)

/-- A pop of a live entry (rule R90). -/
theorem State.popReturn_ok (h : 0 < s.sp.val) :
    s.popReturn = .ok { s with pc := s.stack[s.sp.val - 1]'(by omega), sp := ⟨s.sp.val - 1, by omega⟩ } :=
  dif_neg (by omega)

/-- A pop of an empty stack (rule R171). -/
theorem State.popReturn_error (h : s.sp = 0) : s.popReturn = .error .stackUnderflow := dif_pos (by rw [h]; rfl)

/-! ### Fetch -/

/-- A fetch at a pc of at most 0x0FFE (rule R76). -/
theorem State.fetch_ok (h : s.pc.toNat ≤ 0x0FFE) : s.fetch = .ok (s.mem.word s.pc.toNat, s.advance) := by
  unfold State.fetch; rw [Memory.readWord_ok _ h]

/-- A fetch above it (rules R40, R169). -/
theorem State.fetch_error (h : 0x0FFE < s.pc.toNat) :
    s.fetch = .error (.memoryOutOfBounds (BitVec.ofNat 16 (max s.pc.toNat 0x1000))) := by
  unfold State.fetch; rw [Memory.readWord_error _ h]

/-- When a Step executes an instruction: RUNNING, the fetch in range, the word an instruction's (rules R75 to R77). -/
theorem State.pending_eq_some {s : State} {i : Instr} :
    s.pending = some i ↔
      s.status = .running ∧ s.pc.toNat ≤ 0x0FFE ∧ decode (s.mem.word s.pc.toNat) = .instr i := by
  unfold State.pending
  cases hs : s.status with
  | faulted f => simp
  | running =>
    by_cases hp : s.pc.toNat ≤ 0x0FFE
    · simp only [s.fetch_ok hp]
      cases hd : decode (s.mem.word s.pc.toNat) <;> simp [hp]
    · simp only [s.fetch_error (by omega)]
      simp [hp]

/-- Everything a Step can do: nothing when FAULTED; a fetch fault; an unrecognized word; or the execute phase of the
pending instruction on the state with pc advanced (rules R75 to R80). -/
theorem step_cases (s : State) :
    ((∃ f, s.status = .faulted f) ∧ step s = .next s) ∨
    (s.status = .running ∧ 0x0FFE < s.pc.toNat ∧
      step s = .next (s.raise (.memoryOutOfBounds (BitVec.ofNat 16 (max s.pc.toNat 0x1000))))) ∨
    (s.status = .running ∧ s.pc.toNat ≤ 0x0FFE ∧ ∃ w, decode (s.mem.word s.pc.toNat) = .unrecognized w ∧
      step s = .next (s.advance.raise (.decodeUnrecognized w))) ∨
    (∃ i, s.pending = some i ∧ step s = exec i s.advance) := by
  cases hs : s.status with
  | faulted f => left; exact ⟨⟨f, rfl⟩, by simp [step, hs]⟩
  | running =>
    right
    by_cases hp : s.pc.toNat ≤ 0x0FFE
    · right
      cases hd : decode (s.mem.word s.pc.toNat) with
      | instr i =>
        right
        exact ⟨i, State.pending_eq_some.mpr ⟨hs, hp, hd⟩, by simp only [step, hs, s.fetch_ok hp, hd]⟩
      | unrecognized w =>
        left
        exact ⟨rfl, hp, w, rfl, by simp only [step, hs, s.fetch_ok hp, hd]⟩
    · left
      exact ⟨rfl, by omega, by simp only [step, hs, s.fetch_error (show 0x0FFE < s.pc.toNat by omega)]⟩

end Sys2Proof.Machine
end

