-- ==== Sys2Proof/Tests/Slice0.lean ====
section
/-! SUPPORT. The model's own tests. The expected values are those of spec/95_test_vectors.md (the vector's number stands
in each test's comment) or, for the witnesses at the end, states that meet a statement's hypotheses. -/

namespace Sys2Proof.Tests

open Sys2Proof.Machine

/-! ### Helpers -/

/-- The reset state with some registers set. -/
def withRegs : List (RegIdx × Byte) → State
  | [] => State.reset
  | (x, b) :: rest => (withRegs rest).setReg x b

/-- The state an outcome goes on in. -/
def stateOf : Host.Outcome State Fault Refusal → Option State
  | .next t => some t
  | .fault _ => none
  | .refused _ => none

/-- What `look` sees after one Step at 0x200 of the word `w`. -/
def after {α : Type} (look : State → α) (w : Nat) (s : State) : Option α :=
  (stateOf (step (s.withFetchWord 16 w))).map look

/-- Vx and VF. -/
def regAndFlag (x : RegIdx) (t : State) : Byte × Byte := (t.reg x, t.reg 0xF#4)

/-- The status and pc. -/
def statusAndPc (t : State) : Status × Word := (t.status, t.pc)

/-- Every word of a list is rejected, each under its own name. -/
abbrev unrecognized (ws : List Word) : Prop := ws.map decode = ws.map .unrecognized

/-- The columns at the edges of row `r` whose pixel is set. -/
def pixels (r : Nat) (t : State) : List Nat := [0, 1, 2, 3, 4, 5, 6, 62, 63].filter (fun c => t.fb.pixel r c)

/-- I at `i`, V0 to VF holding 1 to 16, and the bytes `bs` at 0x300 (no byte of them zero). -/
def withIndex (i : Word) (bs : List Byte) : State :=
  { State.reset with
    i := i, mem := bs.zipIdx.map (fun p => (0x300 + p.2, p.1)),
    v := Vector.ofFn (fun k => BitVec.ofNat 8 (k.val + 1)) }

/-! ### Well-formed instructions -/

/-- Each check refuses a field one past its range (rule R56). -/
theorem test_wellFormed_refuses :
    Field.fits (.reg 16) = false ∧ Field.fits (.imm8 256) = false ∧ Field.fits (.addr12 4096) = false ∧
      Field.fits (.height 16) = false ∧ fieldsFit [.reg 3, .imm8 256] = false ∧
      fieldsFit [.reg 1, .reg 2, .height 16] = false := by decide

/-- Each check accepts the last value in its range. -/
theorem test_wellFormed_accepts :
    fieldsFit [.reg 15, .imm8 255] = true ∧ fieldsFit [.addr12 4095] = true ∧
      fieldsFit [.reg 15, .reg 15, .height 15] = true ∧ (Instr.drw 0xF 0xF 0xF).WellFormed := by decide

/-! ### Decoding: one word per row of the opcode map (section 2.1) -/

theorem test_decode_flow :
    decode 0x00EE = .instr .ret ∧ decode 0x1FFF = .instr (.jmp 0xFFF) ∧ decode 0x2200 = .instr (.call 0x200) ∧
      decode 0xB000 = .instr (.jmpV0 0x000) ∧ decode 0x3F01 = .instr (.seVx 0xF 0x01) ∧
      decode 0x4000 = .instr (.sneVx 0x0 0x00) ∧ decode 0x5AB0 = .instr (.seVxVy 0xA 0xB) ∧
      decode 0x9AB0 = .instr (.sneVxVy 0xA 0xB) := by decide

theorem test_decode_alu :
    decode 0x6FFF = .instr (.ldVx 0xF 0xFF) ∧ decode 0x7001 = .instr (.addVx 0x0 0x01) ∧
      decode 0x8120 = .instr (.ldVxVy 0x1 0x2) ∧ decode 0x8121 = .instr (.or 0x1 0x2) ∧
      decode 0x8122 = .instr (.and 0x1 0x2) ∧ decode 0x8123 = .instr (.xor 0x1 0x2) ∧
      decode 0x8124 = .instr (.add 0x1 0x2) ∧ decode 0x8125 = .instr (.sub 0x1 0x2) ∧
      decode 0x8126 = .instr (.shr 0x1 0x2) ∧ decode 0x8127 = .instr (.subn 0x1 0x2) ∧
      decode 0x812E = .instr (.shl 0x1 0x2) ∧ decode 0xC7F0 = .instr (.rnd 0x7 0xF0) := by decide

theorem test_decode_index :
    decode 0xA123 = .instr (.ldI 0x123) ∧ decode 0xF31E = .instr (.addIVx 0x3) ∧
      decode 0xF329 = .instr (.ldFVx 0x3) ∧ decode 0xF333 = .instr (.ldBVx 0x3) ∧
      decode 0xF355 = .instr (.stRegs 0x3) ∧ decode 0xF365 = .instr (.ldRegs 0x3) := by decide

theorem test_decode_display :
    decode 0x00E0 = .instr .cls ∧ decode 0xD00F = .instr (.drw 0x0 0x0 0xF) ∧
      decode 0xD120 = .instr (.drw 0x1 0x2 0x0) := by decide

theorem test_decode_timer_key :
    decode 0xE09E = .instr (.skp 0x0) ∧ decode 0xEFA1 = .instr (.sknp 0xF) ∧ decode 0xF307 = .instr (.ldVxDt 0x3) ∧
      decode 0xF30A = .instr (.ldVxKey 0x3) ∧ decode 0xF315 = .instr (.ldDtVx 0x3) ∧
      decode 0xF318 = .instr (.ldStVx 0x3) := by decide

/-- The nearest neighbours of the accepted words, families 0x0, 0x5, 0x8, 0x9 and 0xE. -/
theorem test_decode_neighbours : unrecognized
    [0x0000, 0x00E1, 0x00EF, 0x00FE, 0x01E0, 0x0200, 0x0FFF, 0x5121, 0x512F, 0x8128, 0x8129, 0x812A, 0x812B,
      0x812C, 0x812D, 0x812F, 0x9121, 0x912F, 0xE09D, 0xE09F, 0xE19F, 0xE0A0, 0xE0A2, 0xE000, 0xE0FF] := by decide

/-- The same in family 0xF. -/
theorem test_decode_neighbours_f : unrecognized
    [0xF000, 0xF006, 0xF008, 0xF00B, 0xF014, 0xF016, 0xF017, 0xF019, 0xF01D, 0xF01F, 0xF028, 0xF02A, 0xF030,
      0xF032, 0xF034, 0xF054, 0xF056, 0xF064, 0xF066, 0xF075, 0xF085, 0xF0FF] := by decide

/-- The bytes of a word lie high byte first (vector X7, rules R45, R55); one byte is no instruction. -/
theorem test_decode_bytes :
    decodeBytes [0xAB, 0xCD, 0x99] = .instr (.ldI 0xBCD) [0x99] ∧ decodeBytes [0x81, 0x28] = .unrecognized 0x8128 [] ∧
      decodeBytes [0x60] = .truncated ∧ decodeTableWord 16 0xABCD = some (.ldI 0xBCD) ∧
      decodeTableWord 16 0x8128 = none := by decide

/-- Lines of the listings P2, P3 and P5 (rule R64). -/
theorem test_asm : asmOfWord 0xA300 = "LD I, 0x300" ∧ asmOfWord 0xD012 = "DRW V0, V1, 0x2" ∧
    asmOfWord 0xF155 = "LD [I], V1" ∧ asmOfWord 0x00EE = "RET" ∧ asmOfWord 0x0000 = "DW 0x0000" ∧
    asmOfBytes [0xFF, 0xFF] = "DB 0xFF, 0xFF" ∧ asmOfWord 0x8106 = "SHR V1" := by decide +kernel

/-! ### Control transfer (section 2.2) -/

/-- F2 and F3: an odd target, and the largest one. -/
theorem test_jmp : after statusAndPc 0x1203 State.reset = some (.running, 0x0203) ∧
    after statusAndPc 0x1FFF State.reset = some (.running, 0x0FFF) := by decide

/-- F5: the last entry. -/
theorem test_call : after (fun t => (t.pc, t.sp.val, t.stack[15])) 0x2ABC { State.reset with sp := 15 } =
    some (0x0ABC, 16, 0x0202) := by decide

/-- F6: a seventeenth call. -/
theorem test_call_overflow : after (fun t => (t.status, t.pc, t.sp.val)) 0x2ABC { State.reset with sp := 16 } =
    some (.faulted .stackOverflow, 0x0202, 16) := by decide

/-- F8. -/
theorem test_ret : after (fun t => (t.pc, t.sp.val)) 0x00EE
    { State.reset with sp := 2, stack := (State.reset.stack.set 0 0x0222).set 1 0x0345 } = some (0x0345, 1) := by
  decide

/-- F7. -/
theorem test_ret_underflow : after (fun t => (t.status, t.pc, t.sp.val)) 0x00EE State.reset =
    some (.faulted .stackUnderflow, 0x0202, 0) := by decide

/-- F10 and F11: not reduced to 12 bits, and V0 whatever nnn's high nibble is. -/
theorem test_jmpV0 : after (·.pc) 0xBFFF (withRegs [(0x0, 0xFF)]) = some 0x10FE ∧
    after (·.pc) 0xB300 (withRegs [(0x3, 0x77)]) = some 0x0300 := by decide

/-- F12 and F13. -/
theorem test_seVx : after (·.pc) 0x3A05 (withRegs [(0xA, 0x05)]) = some 0x0204 ∧
    after (·.pc) 0x3A05 (withRegs [(0xA, 0x06)]) = some 0x0202 := by decide

/-- F14 and F15. -/
theorem test_sneVx : after (·.pc) 0x4A05 (withRegs [(0xA, 0x06)]) = some 0x0204 ∧
    after (·.pc) 0x4A05 (withRegs [(0xA, 0x05)]) = some 0x0202 := by decide

/-- F16 and F17. -/
theorem test_seVxVy : after (·.pc) 0x5120 (withRegs [(0x1, 0x33), (0x2, 0x33)]) = some 0x0204 ∧
    after (·.pc) 0x5120 (withRegs [(0x1, 0x33), (0x2, 0x34)]) = some 0x0202 := by decide

/-- F19 and F20. -/
theorem test_sneVxVy : after (·.pc) 0x9120 (withRegs [(0x1, 0x01), (0x2, 0x02)]) = some 0x0204 ∧
    after (·.pc) 0x9110 (withRegs [(0x1, 0x5A)]) = some 0x0202 := by decide

/-! ### Loads, ALU, shifts, random (section 2.3) -/

/-- A1 and A2. -/
theorem test_ldVx : after (regAndFlag 0x1) 0x61AB State.reset = some (0xAB, 0x00) ∧
    after (regAndFlag 0xF) 0x6F00 (withRegs [(0xF, 0x01)]) = some (0x00, 0x00) := by decide

/-- A3 and A5: no carry flag, also not into VF as the destination. -/
theorem test_addVx : after (regAndFlag 0x0) 0x7005 (withRegs [(0x0, 0xFE)]) = some (0x03, 0x00) ∧
    after (regAndFlag 0xF) 0x7F02 (withRegs [(0xF, 0xFF)]) = some (0x01, 0x01) := by decide

/-- A6. -/
theorem test_ldVxVy : after (·.reg 0x1) 0x8120 (withRegs [(0x2, 0x7E)]) = some 0x7E := by decide

/-- A7 to A9: VF is left alone. -/
theorem test_logic :
    after (regAndFlag 0x1) 0x8121 (withRegs [(0x1, 0xF0), (0x2, 0x0F), (0xF, 0x01)]) = some (0xFF, 0x01) ∧
      after (regAndFlag 0x1) 0x8122 (withRegs [(0x1, 0xF3), (0x2, 0x3F), (0xF, 0x01)]) = some (0x33, 0x01) ∧
      after (regAndFlag 0x1) 0x8123 (withRegs [(0x1, 0xFF), (0x2, 0x0F), (0xF, 0x01)]) = some (0xF0, 0x01) := by
  decide

/-- A11 and A16: the carry, and the flag over the sum in VF. -/
theorem test_add : after (regAndFlag 0x1) 0x8124 (withRegs [(0x1, 0xF0), (0x2, 0x20)]) = some (0x10, 0x01) ∧
    after (regAndFlag 0xF) 0x8FF4 (withRegs [(0xF, 0x80)]) = some (0x01, 0x01) := by decide

/-- A18: y = F reads the old VF. -/
theorem test_add_vf : after (regAndFlag 0x1) 0x81F4 (withRegs [(0x1, 0xFF), (0xF, 0x01)]) = some (0x00, 0x01) := by
  decide

/-- A21, A22 (S7): a borrow, and equality. -/
theorem test_sub : after (regAndFlag 0x1) 0x8125 (withRegs [(0x1, 0x01), (0x2, 0x05)]) = some (0xFC, 0x00) ∧
    after (regAndFlag 0x1) 0x8125 (withRegs [(0x1, 0x42), (0x2, 0x42)]) = some (0x00, 0x01) := by decide

/-- A26 and A27. -/
theorem test_sub_vf : after (regAndFlag 0xF) 0x8F15 (withRegs [(0xF, 0x01), (0x1, 0x05)]) = some (0x00, 0x00) ∧
    after (regAndFlag 0x1) 0x81F5 (withRegs [(0x1, 0x10), (0xF, 0x01)]) = some (0x0F, 0x01) := by decide

/-- A36 and A37. -/
theorem test_subn : after (regAndFlag 0x1) 0x8127 (withRegs [(0x1, 0x01), (0x2, 0x05)]) = some (0x04, 0x01) ∧
    after (regAndFlag 0x1) 0x8127 (withRegs [(0x1, 0x05), (0x2, 0x01)]) = some (0xFC, 0x00) := by decide

/-- A28 (V2 ignored) and A34. -/
theorem test_shr : after (regAndFlag 0x1) 0x8126 (withRegs [(0x1, 0x05), (0x2, 0xEE)]) = some (0x02, 0x01) ∧
    after (regAndFlag 0xF) 0x8F06 (withRegs [(0xF, 0x02)]) = some (0x00, 0x00) := by decide

/-- A35: the other dialect shifts V2. -/
theorem test_shr_usesVy :
    (stateOf (shrWith true 0x1 0x2 (withRegs [(0x1, 0x05), (0x2, 0x04)]))).map (regAndFlag 0x1) =
      some (0x02, 0x00) := by decide

/-- A40 and A45. -/
theorem test_shl : after (regAndFlag 0x1) 0x810E (withRegs [(0x1, 0x81)]) = some (0x02, 0x01) ∧
    after (regAndFlag 0xF) 0x8F0E (withRegs [(0xF, 0x40)]) = some (0x00, 0x00) := by decide

/-- A46 and A47, with the random byte given. -/
theorem test_rnd :
    (stateOf (rndWith 0xA7 0x1 0x0F State.reset)).map (·.reg 0x1) = some 0x07 ∧
      (stateOf (rndWith 0xA7 0x1 0x00 State.reset)).map (·.reg 0x1) = some 0x00 := by decide

/-! ### Address register and memory (section 2.4) -/

/-- M1. -/
theorem test_ldI : after (·.i) 0xA2F0 State.reset = some 0x02F0 := by decide

/-- M2 and M3: past the end of memory without a flag, and the wrap. -/
theorem test_addIVx :
    after (fun t => (t.i, t.reg 0xF)) 0xF31E { withRegs [(0x3, 0x01)] with i := 0x0FFF } = some (0x1000, 0x00) ∧
      after (·.i) 0xF31E { withRegs [(0x3, 0x01)] with i := 0xFFFF } = some 0x0000 := by decide

/-- M7 and M8: the glyphs of 0x0F and, by its low nibble, of 0x1A, wherever FONT_BASE is. -/
theorem test_ldFVx : glyphAddr (glyphDigit 0x0F) = BitVec.ofNat 16 (Config.fontBase.val + 0x4B) ∧
    after (·.i) 0xF229 (withRegs [(0x2, 0x1A)]) = some (BitVec.ofNat 16 (Config.fontBase.val + 0x32)) := ⟨rfl, rfl⟩

/-- M9. -/
theorem test_ldBVx : after (fun t => (t.mem.read 0x300, t.mem.read 0x301, t.mem.read 0x302, t.i)) 0xF033
    { withRegs [(0x0, 0xFE)] with i := 0x0300 } = some (0x02, 0x05, 0x04, 0x0300) := by decide

/-- M14 and M16: nothing is written, and the reported address. -/
theorem test_ldBVx_fault :
    after (fun t => (statusAndPc t, t.mem.read 0xFFE)) 0xF033 { withRegs [(0x0, 0x09)] with i := 0x0FFE } =
        some ((.faulted (.memoryOutOfBounds 0x1000), 0x0202), 0x00) ∧
      after (·.status) 0xF033 { withRegs [(0x0, 0x09)] with i := 0x1234 } =
        some (.faulted (.memoryOutOfBounds 0x1234)) := by decide

/-- M17. -/
theorem test_stRegs : after (fun t => (t.mem.bytesFrom 0xFF0 16, t.i)) 0xFF55 (withIndex 0x0FF0 []) =
    some ([1, 2, 3, 4, 5, 6, 7, 8, 9, 10, 11, 12, 13, 14, 15, 16], 0x0FF0) := by decide

/-- M18: one past, and nothing is written. -/
theorem test_stRegs_fault : after (fun t => (t.status, t.mem.read 0xFF1)) 0xFF55 (withIndex 0x0FF1 []) =
    some (.faulted (.memoryOutOfBounds 0x1000), 0x00) := by decide

/-- M20: V3 is above Vx. -/
theorem test_ldRegs : after (fun t => (t.reg 0x0, t.reg 0x1, t.reg 0x2, t.reg 0x3, t.i)) 0xF265
    (withIndex 0x0300 [0x02, 0x05, 0x04]) = some (0x02, 0x05, 0x04, 0x04, 0x0300) := by decide

/-- M22: no wrap, nothing loaded. -/
theorem test_ldRegs_fault : after (fun t => (t.status, t.reg 0x0)) 0xF165 (withIndex 0xFFFF []) =
    some (.faulted (.memoryOutOfBounds 0xFFFF), 0x01) := by decide

/-! ### Display (section 2.5) -/

/-- G1. -/
theorem test_cls : after (·.fb.pixel 3 4) 0x00E0
    { State.reset with fb := State.reset.fb.setPixel 3 4 true } = some false := by decide

/-- G2: the anchor wraps, the sprite is clipped. -/
theorem test_drw : after (fun t => (pixels 0 t, t.reg 0xF)) 0xD011
    ((withIndex 0x0300 [0xC0]).setReg 0x0 0x7F |>.setReg 0x1 0x20) = some ([63], 0x00) := by decide

/-- G13: a hit on the one visible pixel. -/
theorem test_drw_hit : after (fun t => (pixels 31 t, t.reg 0xF)) 0xD011
    (((withIndex 0x0300 [0xFF]).setReg 0x0 63 |>.setReg 0x1 31).setFb (Framebuffer.clear.setPixel 31 63 true)) =
      some ([], 0x01) := by decide

/-- The rows of glyph A, drawn as in G12, from the customary font of rule R43. -/
theorem test_customaryFont : Config.customaryFont.length = 80 ∧
    (Config.customaryFont.drop 0x32).take 5 = [0xF0, 0x90, 0xF0, 0x90, 0x90] := by decide

/-- G14: the other dialect wraps. -/
theorem test_drw_wrap :
    (stateOf (drawWith true 0x0 0x1 0x2
      ((withIndex 0x0300 [0xFF, 0xFF]).setReg 0x0 62 |>.setReg 0x1 31))).map (fun t => (pixels 0 t, pixels 31 t)) =
      some ([0, 1, 2, 3, 4, 5, 62, 63], [0, 1, 2, 3, 4, 5, 62, 63]) := by decide

/-! ### Timers and keys (section 2.6) -/

/-- T1. -/
theorem test_ldVxDt : after (·.reg 0x1) 0xF107 { State.reset with dt := 0x04 } = some 0x04 := by decide

/-- T2. -/
theorem test_ldDtVx : after (fun t => (t.dt, t.st)) 0xF015 (withRegs [(0x0, 0x07)]) = some (0x07, 0x00) := by
  decide

/-- T3. -/
theorem test_ldStVx : after (fun t => (t.dt, t.st)) 0xF018 (withRegs [(0x0, 0x1E)]) = some (0x00, 0x1E) := by
  decide

/-- T5 and T7. -/
theorem test_tick : (tick { State.reset with st := 0x01 }).st = 0x00 ∧ (tick { State.reset with st := 0x01 }).dt = 0x00 ∧
    (tick { State.reset with dt := 0x05, status := .faulted .stackUnderflow }).dt = 0x05 := by decide

/-- K1 and K4: all eight bits of Vx are compared. -/
theorem test_skp : after (·.pc) 0xE49E { withRegs [(0x4, 0x0A)] with key := some 0xA } = some 0x0204 ∧
    after (·.pc) 0xE49E { withRegs [(0x4, 0x1A)] with key := some 0xA } = some 0x0202 := by decide

/-- K5 and K6. -/
theorem test_sknp : after (·.pc) 0xE4A1 (withRegs [(0x4, 0x0A)]) = some 0x0204 ∧
    after (·.pc) 0xE4A1 { withRegs [(0x4, 0x0A)] with key := some 0xA } = some 0x0202 := by decide

/-- K8: the wait. -/
theorem test_ldVxKey_wait : after (fun t => (t.pc, t.reg 0x0)) 0xF00A State.reset = some (0x0200, 0x00) ∧
    awaitingKey (State.reset.withFetchWord 16 0xF00A) = true := by decide

/-- K11. -/
theorem test_ldVxKey : after (fun t => (t.pc, t.reg 0xF)) 0xFF0A { State.reset with key := some 0xF } =
    some (0x0202, 0x0F) := by decide

/-! ### Fetch, faults and reset (section 2.7) -/

/-- X1: the last word that can be fetched. -/
theorem test_fetch_last : (stateOf (step { State.reset with pc := 0x0FFE, mem := [(0xFFE, 0x60), (0xFFF, 0x01)] })).map
    (fun t => (t.reg 0x0, t.pc)) = some (0x01, 0x1000) := by decide

/-- X3 and X4. -/
theorem test_fetch_fault :
    (stateOf (step { State.reset with pc := 0x0FFF })).map statusAndPc =
        some (.faulted (.memoryOutOfBounds 0x1000), 0x0FFF) ∧
      after statusAndPc 0x8128 State.reset = some (.faulted (.decodeUnrecognized 0x8128), 0x0202) := by decide

/-- X3 as the host reads it: code 2 and the address, whatever the idle value of `fault_info` is (rules R21, R167). -/
theorem test_fault_outputs : ∀ idle : Word,
    (stateOf (step { State.reset with pc := 0x0FFF })).map
      (fun t => (t.status.isFaulted, t.status.code, t.status.info idle)) = some (true, 2, 0x1000) := fun _ => rfl

/-- S11: 3584 bytes fill memory to its end, 3585 are refused. -/
theorem test_boot : (State.boot (List.replicate 3585 0x01)).status = .faulted .romTooLarge ∧
    (State.boot (List.replicate 3585 0x01)).mem.read 0x200 = 0x00 ∧ (State.boot [0x22, 0x00]).mem.read 0x200 = 0x22 := by
  decide +kernel

/-! ### Witnesses: states and operands that meet each statement's hypotheses, at the boundaries of its clauses -/

/-- A state about to run `i` at 0x200: one live stack entry, I at 0x300. -/
def ready (i : Instr) : State :=
  { State.reset with sp := 1, i := 0x0300 }.withFetchWord 16 (encode i).toNat

theorem witness_EncodeOfDecodeIsIdentity : decode 0x61AB = .instr (.ldVx 0x1 0xAB) := by decide

/-- Both clauses, at their boundaries; 0xFFFE is where a wrapping address would go wrong. -/
theorem witness_FetchIsBigEndianAndBounded :
    0x0FFE ≤ 0x0FFE ∧ (0x0FFF > 0x0FFE ∧ 0x0FFF < 0x10000) ∧ (0xFFFF > 0x0FFE ∧ 0xFFFF < 0x10000) := by decide

theorem witness_StepRunsTheDecodedInstruction :
    let s := ready (.ldVx 0x1 0xAB)
    s.status = .running ∧ s.pc.toNat ≤ 0x0FFE ∧
      decodeBytes [s.mem.read s.pc.toNat, s.mem.read (s.pc.toNat + 1)] = .instr (.ldVx 0x1 0xAB) [] := by decide

theorem witness_FetchFaultKeepsPc :
    ({ State.reset with pc := 0x0FFF } : State).status = .running ∧
      ({ State.reset with pc := 0x0FFF } : State).pc.toNat > 0x0FFE := by decide

theorem witness_UnrecognizedWordFaults :
    State.reset.status = .running ∧ State.reset.pc.toNat ≤ 0x0FFE ∧ State.reset.mem.word State.reset.pc.toNat = 0x0000 ∧
      decode 0x0000 = .unrecognized 0x0000 := by decide

/-- A FAULTED state, and a run of the three other kinds of event from it. -/
theorem witness_FaultedCoreIsIdleUntilReset :
    let s := State.reset.raise .stackUnderflow
    s.status ≠ .running ∧ (∀ rom, Event.reset rom ∉ [Event.step, .tick, .key (some 0x3), .step]) ∧
      runEvents [.step, .tick, .key (some 0x3), .step] s = .next (s.setKey (some 0x3)) :=
  ⟨by decide, by simp, rfl⟩

/-- Each of the 34 instructions is pending somewhere, and its Step from there completes. -/
theorem witness_ProgramCounterLaw :
    (rowExemplars.map (fun i => ((ready i).pending, (stateOf (step (ready i))).map (·.status)))) =
      rowExemplars.map (fun i => (some i, some .running)) := by decide +kernel

theorem witness_FaultsAreExactlyTheSpecs : State.reset.status = .running := by decide

/-- A fault of the instruction's own, and one of the fetch. -/
theorem witness_FaultsArePrecise :
    (State.reset.withFetchWord 16 0x00EE).status = .running ∧
      after statusAndPc 0x00EE State.reset = some (.faulted .stackUnderflow, 0x0202) ∧
      (stateOf (step { State.reset with pc := 0x1000 })).map statusAndPc =
        some (.faulted (.memoryOutOfBounds 0x1000), 0x1000) := by decide

theorem witness_JumpToSelfIsAFixedPoint :
    (ready (.jmp 0x200)).pending = some (.jmp 0x200) ∧ (0x200#12).toNat = (ready (.jmp 0x200)).pc.toNat := by decide

/-- For the four statements on whatever `exec` answers: it answers a next state for each of the 34. -/
theorem witness_exec_answers :
    rowExemplars.map (fun i => (stateOf (exec i (ready i))).isSome) = List.replicate 34 true := by decide +kernel

theorem witness_OnlyKeyInstructionsSeeTheKey :
    (∀ x, Instr.cls ≠ .skp x ∧ Instr.cls ≠ .sknp x ∧ Instr.cls ≠ .ldVxKey x) ∧
      exec .cls State.reset = .next (State.reset.setFb Framebuffer.clear) := ⟨by simp, rfl⟩

theorem witness_OnlyRndDrawsARandomByte :
    (∀ x kk, Instr.cls ≠ .rnd x kk) ∧ exec .cls State.reset = .next (State.reset.setFb Framebuffer.clear) :=
  ⟨by simp, rfl⟩

theorem witness_FbChangedMissesNothing :
    (stateOf (step (ready (.jmp 0x300)))).isSome = true ∧ fbChanged (ready (.jmp 0x300)) = false := by decide

theorem witness_StepKeepsMemoryCanonical :
    Memory.wf [(0x300, 0x01), (0xFFF, 0x02)] ∧ (stateOf (step (ready (.stRegs 0x1)))).isSome = true := by decide

/-- pc and a stack entry at their bounds. -/
theorem witness_StepKeepsPcBounded :
    PcBounded { State.reset with pc := 0x10FE, stack := State.reset.stack.set 15 0x1000 } := by decide

theorem witness_StepKeepsPayloadHonest :
    PayloadHonest .running ∧ PayloadHonest (.faulted (.memoryOutOfBounds 0x1000)) ∧
      PayloadHonest (.faulted (.decodeUnrecognized 0x8128)) :=
  ⟨trivial, show 0x0FFF < (0x1000#16).toNat by decide, show decode 0x8128 = .unrecognized 0x8128 by decide⟩

/-- A state with all three invariants, and a run from it. -/
theorem witness_EveryRunKeepsTheInvariants :
    let s : State := { State.reset with pc := 0x0FFE, mem := [(0x300, 0x01)] }
    Inv s ∧ (stateOf (runEvents [.tick, .key (some 0x1), .reset [0x00, 0xE0], .step] s)).isSome = true :=
  ⟨⟨by decide, by decide, trivial⟩, by decide⟩

/-- The shortest ROM and the longest that fits; also for the first clause of the load_font statement. -/
theorem witness_RomIsPlacedAtProgramBase :
    ([] : List Byte).length ≤ 3584 ∧ (List.replicate 3584 (0x01 : Byte)).length ≤ 3584 :=
  ⟨by decide, by rw [List.length_replicate]⟩

theorem witness_RomTooLargeLeavesMemoryUnmodified : (List.replicate 3585 (0x01 : Byte)).length > 3584 := by
  rw [List.length_replicate]; decide

theorem witness_LoadFontPlacesTheTableIdempotently :
    Memory.wf [(0x300, 0x01)] ∧ (15 < 16 ∧ 4 < 5) ∧
      ¬ (Config.fontBase.val ≤ 0x200 ∧ 0x200 ≤ Config.fontBase.val + 79) :=
  ⟨by decide, by decide, by have := Config.fontBase.isLt; omega⟩

theorem witness_TickCountsBothTimersDown : ({ State.reset with dt := 0x02 } : State).status = .running := by decide

/-- Room in an empty stack and for one last entry, and no room. -/
theorem witness_CallPushesTheReturnAddress :
    State.reset.sp.val < 16 ∧ ({ State.reset with sp := 15 } : State).sp.val < 16 ∧
      ({ State.reset with sp := 16 } : State).sp.val = 16 := by decide

/-- One live entry, sixteen, and none. -/
theorem witness_RetPopsTheReturnAddress :
    0 < ({ State.reset with sp := 1 } : State).sp.val ∧ 0 < ({ State.reset with sp := 16 } : State).sp.val ∧
      State.reset.sp.val = 0 := by decide

theorem witness_RetUndoesCall :
    let s : State := { State.reset with sp := 15 }
    s.sp.val < 16 ∧ (stateOf (exec (.call 0x300) s)).map (fun t => (t.sp.val, t.stack[15])) = some (16, 0x0200) := by
  decide

theorem witness_RegisterSkips : (0x1#4 : Nibble) ≠ 0x0#4 ∧ (0xF#4 : Nibble) ≠ 0x0#4 := by decide

/-- For the clauses of the flag-writing instructions on a destination other than VF. -/
theorem witness_destination_not_VF : (0x0#4 : RegIdx) ≠ 0xF#4 ∧ (0xE#4 : RegIdx) ≠ 0xF#4 := by decide

/-- The highest I that succeeds, the lowest that faults, and one that would wrap. -/
theorem witness_BcdStoresThreeDigits :
    (withIndex 0x0FFD []).i.toNat + 2 ≤ 0x0FFF ∧ (withIndex 0x0FFE []).i.toNat + 2 > 0x0FFF ∧
      (withIndex 0xFFFF []).i.toNat + 2 > 0x0FFF := by decide

/-- The same for StRegs and LdRegs, with one register and with sixteen. -/
theorem witness_StRegs_LdRegs :
    (withIndex 0x0FFF []).i.toNat + (0x0#4).toNat ≤ 0x0FFF ∧ (withIndex 0x0FF0 []).i.toNat + (0xF#4).toNat ≤ 0x0FFF ∧
      (withIndex 0x0FF1 []).i.toNat + (0xF#4).toNat > 0x0FFF ∧
      (withIndex 0x1000 []).i.toNat + (0x0#4).toNat > 0x0FFF := by decide

theorem witness_FetchSeesStoresAtOnce :
    let s := withIndex 0x0FFE []
    s.i.toNat + (0x1#4).toNat ≤ 0x0FFF ∧ (0x0#4).toNat + 1 ≤ (0x1#4).toNat ∧
      (stateOf (exec (.stRegs 0x1) s)).map (fun t => t.mem.word 0x0FFE) = some 0x0102 := by decide

/-- A sprite that hits: G4 of the vectors. -/
def hitting : State := (withIndex 0x0300 [0x80]).setReg 0x0 0x00 |>.setReg 0x1 0x00 |>.setFb
  (Framebuffer.clear.setPixel 0 0 true)

/-- No byte at all with I outside memory, four bytes up to the last address (G8, G10), a hit and none. -/
theorem witness_DrwXorsTheSprite :
    (0x0#4 : Nibble).toNat = 0 ∧ (withIndex 0x0FFC []).i.toNat + (0x4#4).toNat - 1 ≤ 0x0FFF ∧ Collides hitting 0x0 0x1 0x1 ∧
      ¬ Collides (withIndex 0xFFFF []) 0x0 0x1 0x0 := by
  refine ⟨by decide, by decide, ⟨0, 0, by decide, by decide, by decide, by decide⟩, ?_⟩
  rintro ⟨r, c, -, -, h, -⟩
  simp [withIndex, Framebuffer.pixel, State.reset] at h

theorem witness_ClsClearsEveryPixel : (ready .cls).pending = some .cls := by decide

/-- G9: bytes past the end, in rows that would be clipped. -/
theorem witness_DrwFaultsBeforeDrawing :
    (0x5#4 : Nibble).toNat > 0 ∧ (withIndex 0x0FFE []).i.toNat + (0x5#4).toNat - 1 > 0x0FFF ∧
      (0x1#4 : Nibble).toNat > 0 ∧ (withIndex 0x1000 []).i.toNat + (0x1#4).toNat - 1 > 0x0FFF := by decide

/-- S10: a sprite with a bit set on an empty buffer, drawn twice. -/
theorem witness_DrawingTwiceCancels :
    let s := (withIndex 0x0300 [0x80]).setReg 0x0 0x00 |>.setReg 0x1 0x00
    (0x0#4 : RegIdx) ≠ 0xF#4 ∧ (0x1#4 : RegIdx) ≠ 0xF#4 ∧ s.i.toNat + (0x1#4).toNat - 1 ≤ 0x0FFF ∧
      (stateOf (exec (.drw 0x0 0x1 0x1) s)).map (fun t => (t.reg 0xF, t.fb.pixel 0 0)) = some (0x00, true) ∧
      ((stateOf (exec (.drw 0x0 0x1 0x1) s)).bind (fun t => stateOf (exec (.drw 0x0 0x1 0x1) t))).map
        (fun u => (u.reg 0xF, u.fb.pixel 0 0)) = some (0x01, false) := by decide +kernel

/-- The buffer of that state is empty. -/
theorem witness_DrawingTwiceCancels_empty : ∀ r c : Nat, (withIndex 0x0300 [0x80]).fb.pixel r c = false :=
  Framebuffer.pixel_clear

/-- The key named, another key, no key, and a Vx above 0x0F. -/
theorem witness_KeySkips :
    (∃ k : Nibble, (some 0xA#4 : Option Nibble) = some k ∧ k.toNat = (0x0A#8).toNat) ∧
      (∀ k : Nibble, (some 0x3#4 : Option Nibble) = some k → k.toNat ≠ (0x0A#8).toNat) ∧
      (∀ k : Nibble, (none : Option Nibble) = some k → k.toNat ≠ (0x0A#8).toNat) ∧
      (∀ k : Nibble, (some 0xA#4 : Option Nibble) = some k → k.toNat ≠ (0x1A#8).toNat) := by
  refine ⟨⟨0xA#4, rfl, rfl⟩, ?_, ?_, ?_⟩ <;> intro k h <;> cases h <;> decide

theorem witness_LdVxKeyTakesTheKey :
    ({ State.reset with key := some 0xF } : State).key = some 0xF ∧ State.reset.key = none := by decide

theorem witness_KeyWaitRepeatsUntilAKey :
    (ready (.ldVxKey 0x0)).pending = some (.ldVxKey 0x0) ∧ (ready (.ldVxKey 0x0)).key = none ∧
      awaitingKey (ready (.ldVxKey 0x0)) = true := by decide

end Sys2Proof.Tests
end

/-! PROOFS. Flow control (spec file 41_flow_control.md): Jmp and the four skips on registers. -/

section

namespace Sys2Proof

/-! ### Decoding, by format and family (rules R59 to R61) -/

theorem decode_encodeA_jmp (nnn : Addr12) : decode (encodeA 0x1#4 nnn) = .instr (.jmp nnn) := by
  simp [decode]

theorem decode_encodeXK_seVx (x : RegIdx) (kk : Byte) : decode (encodeXK 0x3#4 x kk) = .instr (.seVx x kk) := by
  simp [decode]

theorem decode_encodeXK_sneVx (x : RegIdx) (kk : Byte) : decode (encodeXK 0x4#4 x kk) = .instr (.sneVx x kk) := by
  simp [decode]

/-- The low nibble alone decides in families 0x5 and 0x9. -/
theorem decodeLowZero_encodeXYN (op x y n : Nibble) (i : Instr) :
    decodeLowZero (encodeXYN op x y n) i = if n = 0x0#4 then .instr i else .unrecognized (encodeXYN op x y n) := by
  simp [decodeLowZero]

theorem decode_encodeXYN_family5 (x y : RegIdx) (n : Nibble) :
    decode (encodeXYN 0x5#4 x y n) =
      if n = 0x0#4 then .instr (.seVxVy x y) else .unrecognized (encodeXYN 0x5#4 x y n) := by
  simp [decode, decodeLowZero_encodeXYN]

theorem decode_encodeXYN_family9 (x y : RegIdx) (n : Nibble) :
    decode (encodeXYN 0x9#4 x y n) =
      if n = 0x0#4 then .instr (.sneVxVy x y) else .unrecognized (encodeXYN 0x9#4 x y n) := by
  simp [decode, decodeLowZero_encodeXYN]

namespace Machine

variable (s : State)

/-! ### What the instructions answer -/

theorem exec_jmp (nnn : Addr12) : exec (.jmp nnn) s = .next (s.setPc (zextAddr nnn)) := rfl

theorem exec_seVx (x : RegIdx) (kk : Byte) : exec (.seVx x kk) s = .next (s.skipIf (decide (s.reg x = kk))) := rfl

theorem exec_sneVx (x : RegIdx) (kk : Byte) : exec (.sneVx x kk) s = .next (s.skipIf (decide (s.reg x ≠ kk))) := rfl

theorem exec_seVxVy (x y : RegIdx) : exec (.seVxVy x y) s = .next (s.skipIf (decide (s.reg x = s.reg y))) := rfl

theorem exec_sneVxVy (x y : RegIdx) : exec (.sneVxVy x y) s = .next (s.skipIf (decide (s.reg x ≠ s.reg y))) := rfl

/-! ### A transfer of control writes pc and nothing else -/

theorem State.setPc_keepsAllBut_pc (w : Word) : KeepsAllBut [.pc] s (s.setPc w) := by
  intro p hp
  cases p with
  | pc => exact absurd (List.mem_singleton_self Part.pc) hp
  | _ => simp [Unchanged]

theorem State.skipIf_eq_setPc (c : Bool) : s.skipIf c = s.setPc (if c then s.pc + 2 else s.pc) := by
  cases c <;> rfl

variable {s}

/-- What every skip has in common: the condition its arm hands to `skipIf` chooses pc, and nothing else changes. -/
theorem exec_skip_frame {i : Instr} {c : Bool} (h : exec i s = .next (s.skipIf c)) :
    ∃ t, exec i s = .next t ∧ t.pc = (if c then s.pc + 2 else s.pc) ∧ KeepsAllBut [.pc] s t := by
  rw [State.skipIf_eq_setPc] at h
  exact ⟨_, h, s.setPc_pc _, s.setPc_keepsAllBut_pc _⟩

/-- A skip taken when `p` holds (SeVx, SeVxVy). -/
theorem exec_skip_of_decide {i : Instr} {p : Prop} [Decidable p] (h : exec i s = .next (s.skipIf (decide p))) :
    ∃ t, exec i s = .next t ∧ t.pc = (if p then s.pc + 2 else s.pc) ∧ KeepsAllBut [.pc] s t := by
  simpa using exec_skip_frame h

/-- A skip taken when `p` fails (SneVx, SneVxVy). -/
theorem exec_skip_of_decide_not {i : Instr} {p : Prop} [Decidable p] (h : exec i s = .next (s.skipIf (decide (¬ p)))) :
    ∃ t, exec i s = .next t ∧ t.pc = (if p then s.pc else s.pc + 2) ∧ KeepsAllBut [.pc] s t := by
  simpa using exec_skip_frame h

end Machine

/-! ### The statements -/

open Machine

/-- Settles O33: the word is `encodeA`'s, and the whole of Jmp is one write of pc. -/
theorem jmpLoadsPc : Obligations.JmpLoadsPc := by
  intro nnn s
  exact ⟨decode_encodeA_jmp nnn, _, exec_jmp s nnn, toNat_zextAddr nnn, s.setPc_keepsAllBut_pc _⟩

/-- Settles O38: the words are `encodeXK`'s, and both instructions are a `skipIf`, SneVx on the negated condition. -/
theorem immediateSkips : Obligations.ImmediateSkips := by
  intro x kk s
  exact ⟨decode_encodeXK_seVx x kk, decode_encodeXK_sneVx x kk,
    exec_skip_of_decide (exec_seVx s x kk), exec_skip_of_decide_not (exec_sneVx s x kk)⟩

/-- Settles O39: the words are `encodeXYN`'s, whose low nibble decides in both families, and both instructions are a
`skipIf`, SneVxVy on the negated condition. -/
theorem registerSkips : Obligations.RegisterSkips := by
  intro x y s
  refine ⟨decode_encodeXYN_family5 x y 0x0#4, decode_encodeXYN_family9 x y 0x0#4, fun n hn => ⟨?_, ?_⟩,
    exec_skip_of_decide (exec_seVxVy s x y), exec_skip_of_decide_not (exec_sneVxVy s x y)⟩
  · exact (decode_encodeXYN_family5 x y n).trans (if_neg hn)
  · exact (decode_encodeXYN_family9 x y n).trans (if_neg hn)

end Sys2Proof

end

/-! PROOFS. Loads (spec file 42_load_alu.md): LdVx, and the frame of one register write. -/

section

namespace Sys2Proof

/-! ### Decoding, family 0x6 (rules R59, R106) -/

theorem decode_encodeXK_ldVx (x : RegIdx) (kk : Byte) : decode (encodeXK 0x6#4 x kk) = .instr (.ldVx x kk) := by
  simp [decode]

namespace Machine

variable (s : State)

theorem exec_ldVx (x : RegIdx) (kk : Byte) : exec (.ldVx x kk) s = .next (s.setReg x kk) := rfl

/-! ### A register write changes its register and nothing else -/

theorem State.reg_setReg_self (x : RegIdx) (b : Byte) : (s.setReg x b).reg x = b :=
  (s.reg_setReg x x b).trans (if_pos rfl)

theorem State.setReg_keepsRegsBut (x : RegIdx) (b : Byte) : KeepsRegsBut [x] s (s.setReg x b) := by
  intro j hj
  have hne : j ≠ x := fun h => hj (List.mem_singleton.mpr h)
  rw [State.reg_setReg, if_neg hne]

theorem State.setReg_keepsAllBut_v (x : RegIdx) (b : Byte) : KeepsAllBut [.v] s (s.setReg x b) := by
  intro p hp
  cases p with
  | v => exact absurd (List.mem_singleton_self Part.v) hp
  | _ => simp [Unchanged]

/-- What every instruction that only writes Vx has in common: the byte its arm hands to `setReg` is Vx afterwards, and
no other register and no other part changes. -/
theorem exec_setReg_frame {s : State} {i : Instr} {x : RegIdx} {b : Byte} (h : exec i s = .next (s.setReg x b)) :
    ∃ t, exec i s = .next t ∧ t.reg x = b ∧ KeepsRegsBut [x] s t ∧ KeepsAllBut [.v] s t :=
  ⟨_, h, s.reg_setReg_self x b, s.setReg_keepsRegsBut x b, s.setReg_keepsAllBut_v x b⟩

end Machine

/-! ### The statements -/

open Machine

/-- Settles O40: the word is `encodeXK`'s, and the whole of LdVx is one write of Vx. -/
theorem ldVxLoadsTheImmediate : Obligations.LdVxLoadsTheImmediate := by
  intro x kk s
  exact ⟨decode_encodeXK_ldVx x kk, exec_setReg_frame (exec_ldVx s x kk)⟩

end Sys2Proof

end

/-! PROOFS. The index register (spec file 43_index_memory.md): LdI, and the frame of one write of I. -/

section

namespace Sys2Proof

/-! ### Decoding, family 0xA (rules R59, R126) -/

theorem decode_encodeA_ldI (nnn : Addr12) : decode (encodeA 0xA#4 nnn) = .instr (.ldI nnn) := by
  simp [decode]

namespace Machine

variable (s : State)

theorem exec_ldI (nnn : Addr12) : exec (.ldI nnn) s = .next (s.setI (zextAddr nnn)) := rfl

/-! ### A write of I changes nothing else -/

theorem State.setI_keepsAllBut_i (w : Word) : KeepsAllBut [.i] s (s.setI w) := by
  intro p hp
  cases p with
  | i => exact absurd (List.mem_singleton_self Part.i) hp
  | _ => simp [Unchanged]

end Machine

/-! ### The statements -/

open Machine

/-- Settles O47: the word is `encodeA`'s, and the whole of LdI is one write of I, the address zero-extended. -/
theorem ldILoadsI : Obligations.LdILoadsI := by
  intro nnn s
  exact ⟨decode_encodeA_ldI nnn, _, exec_ldI s nnn, toNat_zextAddr nnn, s.setI_keepsAllBut_i _⟩

end Sys2Proof

end

/-! PROOFS. What each of the 34 instructions answers (rules R78, R90 to R156), and the frame of each update of State:
the layer that every statement below is derived from. -/

section

namespace Sys2Proof

/-! ### Frames -/

section
variable {ps qs : List Part} {s t u : Machine.State}

theorem KeepsAllBut.mono (h : KeepsAllBut ps s t) (hsub : ps ⊆ qs) : KeepsAllBut qs s t :=
  fun p hp => h p (fun hm => hp (hsub hm))

theorem Unchanged.trans {p : Part} (hst : Unchanged s t p) (htu : Unchanged t u p) : Unchanged s u p := by
  cases p with
  | v => exact fun j => (htu j).trans (hst j)
  | mem => exact fun a => (htu a).trans (hst a)
  | _ => exact Eq.trans htu hst

theorem KeepsAllBut.trans (hst : KeepsAllBut ps s t) (htu : KeepsAllBut qs t u) : KeepsAllBut (ps ++ qs) s u := by
  intro p hp
  obtain ⟨hps, hqs⟩ := not_or.mp (mt List.mem_append.mpr hp)
  exact (hst p hps).trans (htu p hqs)

end

namespace Machine

variable (s : State)

theorem State.setDt_keepsAllBut_dt (b : Byte) : KeepsAllBut [.dt] s (s.setDt b) := by
  intro p hp
  cases p with
  | dt => exact absurd (List.mem_singleton_self Part.dt) hp
  | _ => simp [Unchanged]

theorem State.setSt_keepsAllBut_st (b : Byte) : KeepsAllBut [.st] s (s.setSt b) := by
  intro p hp
  cases p with
  | st => exact absurd (List.mem_singleton_self Part.st) hp
  | _ => simp [Unchanged]

theorem State.setFb_keepsAllBut_fb (fb : Framebuffer) : KeepsAllBut [.fb] s (s.setFb fb) := by
  intro p hp
  cases p with
  | fb => exact absurd (List.mem_singleton_self Part.fb) hp
  | _ => simp [Unchanged]

theorem State.setMem_keepsAllBut_mem (m : Memory) : KeepsAllBut [.mem] s (s.setMem m) := by
  intro p hp
  cases p with
  | mem => exact absurd (List.mem_singleton_self Part.mem) hp
  | _ => simp [Unchanged]

theorem State.raise_keepsAllBut_status (f : FaultKind) : KeepsAllBut [.status] s (s.raise f) := by
  intro p hp
  cases p with
  | status => exact absurd (List.mem_singleton_self Part.status) hp
  | _ => simp [Unchanged]

theorem State.advance_keepsAllBut_pc : KeepsAllBut [.pc] s s.advance := s.setPc_keepsAllBut_pc _

theorem State.drawn_keepsAllBut_draws : KeepsAllBut [.draws] s s.drawn := by
  intro p hp
  cases p with
  | draws => exact absurd (List.mem_singleton_self Part.draws) hp
  | _ => simp [Unchanged]

theorem State.setRegThenFlag_keepsAllBut_v (x : RegIdx) (r : Byte) (c : Bool) :
    KeepsAllBut [.v] s (s.setRegThenFlag x r c) := by
  have h := (s.setReg_keepsAllBut_v x r).trans ((s.setReg x r).setReg_keepsAllBut_v flagReg (flagByte c))
  exact h.mono (by simp)

theorem State.loadRegs_keepsAllBut_v (k : Nat) (bs : List Byte) : KeepsAllBut [.v] s (s.loadRegs k bs) := by
  intro p hp
  cases p with
  | v => exact absurd (List.mem_singleton_self Part.v) hp
  | _ => simp [Unchanged]

/-- Rnd's two updates: one draw counted, one register written (rule R119). -/
theorem State.drawn_setReg_keepsAllBut_v_draws (x : RegIdx) (b : Byte) :
    KeepsAllBut [.v, .draws] s (s.drawn.setReg x b) := by
  have h := s.drawn_keepsAllBut_draws.trans (s.drawn.setReg_keepsAllBut_v x b)
  exact h.mono (by simp)

/-- A draw's two writes: the pixel buffer, then the flag (rule R142). -/
theorem State.setFb_setFlag_keepsAllBut_v_fb (fb : Framebuffer) (c : Bool) :
    KeepsAllBut [.v, .fb] s ((s.setFb fb).setFlag c) := by
  have h := (s.setFb_keepsAllBut_fb fb).trans ((s.setFb fb).setReg_keepsAllBut_v flagReg (flagByte c))
  exact h.mono (by simp)

theorem State.setRegThenFlag_keepsRegsBut (x : RegIdx) (r : Byte) (c : Bool) :
    KeepsRegsBut [x, flagReg] s (s.setRegThenFlag x r c) := by
  intro j hj
  obtain ⟨hx, hf⟩ : j ≠ x ∧ j ≠ flagReg := by simpa using hj
  rw [State.reg_setRegThenFlag, if_neg hf, if_neg hx]

/-! ### The stack's two updates -/

/-- The state after a push of pc on a stack with room (rule R92). -/
def State.pushed (h : s.sp.val < 16) : State :=
  { s with sp := ⟨s.sp.val + 1, by omega⟩, stack := s.stack.set s.sp.val s.pc h }

/-- The state after a pop of a live entry into pc (rule R90). -/
def State.popped (h : 0 < s.sp.val) : State :=
  { s with pc := s.stack[s.sp.val - 1]'(by omega), sp := ⟨s.sp.val - 1, by omega⟩ }

theorem State.pushReturn_eq_pushed (h : s.sp.val < 16) : s.pushReturn = .ok (s.pushed h) := s.pushReturn_ok h

theorem State.popReturn_eq_popped (h : 0 < s.sp.val) : s.popReturn = .ok (s.popped h) := s.popReturn_ok h

theorem State.pushed_keepsAllBut (h : s.sp.val < 16) : KeepsAllBut [.sp, .stack] s (s.pushed h) := by
  intro p hp
  cases p with
  | sp | stack => exact absurd (by simp) hp
  | v => exact fun _ => rfl
  | mem => exact fun _ => rfl
  | _ => rfl

theorem State.popped_keepsAllBut (h : 0 < s.sp.val) : KeepsAllBut [.pc, .sp] s (s.popped h) := by
  intro p hp
  cases p with
  | pc | sp => exact absurd (by simp) hp
  | v => exact fun _ => rfl
  | mem => exact fun _ => rfl
  | _ => rfl

/-! ### Instructions that cannot fault: one update each (rule R105) -/

theorem exec_cls : exec .cls s = .next (s.setFb Framebuffer.clear) := rfl

theorem exec_jmpV0 (nnn : Addr12) :
    exec (.jmpV0 nnn) s = .next (s.setPc (zextAddr nnn + zextByte (s.reg 0x0#4))) := rfl

theorem exec_addVx (x : RegIdx) (kk : Byte) : exec (.addVx x kk) s = .next (s.setReg x (addByte (s.reg x) kk)) := rfl

theorem exec_ldVxVy (x y : RegIdx) : exec (.ldVxVy x y) s = .next (s.setReg x (s.reg y)) := rfl

theorem exec_or (x y : RegIdx) : exec (.or x y) s = .next (s.setReg x (s.reg x ||| s.reg y)) := rfl

theorem exec_and (x y : RegIdx) : exec (.and x y) s = .next (s.setReg x (s.reg x &&& s.reg y)) := rfl

theorem exec_xor (x y : RegIdx) : exec (.xor x y) s = .next (s.setReg x (s.reg x ^^^ s.reg y)) := rfl

theorem exec_add (x y : RegIdx) : exec (.add x y) s =
    .next (s.setRegThenFlag x (addByte (s.reg x) (s.reg y)) (carryOut (s.reg x) (s.reg y))) := rfl

theorem exec_sub (x y : RegIdx) : exec (.sub x y) s =
    .next (s.setRegThenFlag x (subByte (s.reg x) (s.reg y)) (notBorrow (s.reg x) (s.reg y))) := rfl

theorem exec_subn (x y : RegIdx) : exec (.subn x y) s =
    .next (s.setRegThenFlag x (subByte (s.reg y) (s.reg x)) (notBorrow (s.reg y) (s.reg x))) := rfl

theorem exec_shr (x y : RegIdx) : exec (.shr x y) s =
    .next (s.setRegThenFlag x (shrByte (s.reg x)) (shrOut (s.reg x))) := rfl

theorem exec_shl (x y : RegIdx) : exec (.shl x y) s =
    .next (s.setRegThenFlag x (shlByte (s.reg x)) (shlOut (s.reg x))) := rfl

theorem exec_rnd (x : RegIdx) (kk : Byte) : exec (.rnd x kk) s =
    .next (s.drawn.setReg x (Config.rndByte s.rndDraws &&& kk)) := rfl

theorem exec_skp (x : RegIdx) : exec (.skp x) s = .next (s.skipIf (s.keyPressed (s.reg x))) := rfl

theorem exec_sknp (x : RegIdx) : exec (.sknp x) s = .next (s.skipIf (!s.keyPressed (s.reg x))) := rfl

theorem exec_ldVxDt (x : RegIdx) : exec (.ldVxDt x) s = .next (s.setReg x s.dt) := rfl

theorem exec_ldDtVx (x : RegIdx) : exec (.ldDtVx x) s = .next (s.setDt (s.reg x)) := rfl

theorem exec_ldStVx (x : RegIdx) : exec (.ldStVx x) s = .next (s.setSt (s.reg x)) := rfl

theorem exec_addIVx (x : RegIdx) : exec (.addIVx x) s = .next (s.setI (addIndex s.i (s.reg x))) := rfl

theorem exec_ldFVx (x : RegIdx) : exec (.ldFVx x) s = .next (s.setI (glyphAddr (glyphDigit (s.reg x)))) := rfl

variable {s}

theorem exec_ldVxKey_of_key (x : RegIdx) {k : Nibble} (h : s.key = some k) :
    exec (.ldVxKey x) s = .next (s.setReg x (zextKey k)) := by
  simp [exec, execLdVxKey, h]

theorem exec_ldVxKey_of_none (x : RegIdx) (h : s.key = none) :
    exec (.ldVxKey x) s = .next (s.setPc (s.pc - 2#16)) := by
  simp [exec, execLdVxKey, h]

/-! ### Instructions that can fault: the answer on each side of the one check (rules R168 to R171) -/

theorem exec_ret_of_live (h : 0 < s.sp.val) : exec .ret s = .next (s.popped h) :=
  congrArg s.orRaise (s.popReturn_eq_popped h)

theorem exec_ret_of_empty (h : s.sp = 0) : exec .ret s = .next (s.raise .stackUnderflow) :=
  congrArg s.orRaise (s.popReturn_error h)

theorem exec_call_of_room (nnn : Addr12) (h : s.sp.val < 16) :
    exec (.call nnn) s = .next ((s.pushed h).setPc (zextAddr nnn)) := by
  change s.orRaise (s.pushReturn.map _) = _
  rw [s.pushReturn_eq_pushed h]; rfl

theorem exec_call_of_full (nnn : Addr12) (h : s.sp = 16) :
    exec (.call nnn) s = .next (s.raise .stackOverflow) := by
  change s.orRaise (s.pushReturn.map _) = _
  rw [s.pushReturn_error h]; rfl

/-- The fault of a range at `base` that leaves memory: the lowest out-of-range address (rule R169, decision D12). -/
def pastEnd (base : Nat) : FaultKind := .memoryOutOfBounds (BitVec.ofNat 16 (max base 0x1000))

/-- The canvas Drw ends with: all `n` bytes at I drawn, clipped, from the anchor at (Vx, Vy) (rules R141, R142). -/
def State.drawCanvas (s : State) (x y : RegIdx) (n : Nibble) : Canvas :=
  Canvas.drawSprite false ⟨s.fb, false⟩ (anchorRow (s.reg y)) (anchorColumn (s.reg x))
    (s.mem.bytesFrom s.base n.toNat)

theorem exec_drw_of_inRange (x y : RegIdx) {n : Nibble} (h : n.toNat = 0 ∨ s.base + n.toNat ≤ 0x1000) :
    exec (.drw x y n) s = .next ((s.setFb (s.drawCanvas x y n).fb).setFlag (s.drawCanvas x y n).hit) := by
  change s.orRaise ((s.mem.readRange s.base n.toNat).map _) = _
  rw [s.mem.readRange_ok h]; rfl

theorem exec_drw_of_beyond (x y : RegIdx) {n : Nibble} (h0 : 0 < n.toNat) (h : 0x1000 < s.base + n.toNat) :
    exec (.drw x y n) s = .next (s.raise (pastEnd s.base)) := by
  change s.orRaise ((s.mem.readRange s.base n.toNat).map _) = _
  rw [s.mem.readRange_error h0 h]; rfl

/-- A checked store of bytes, in range: what LdBVx and StRegs share (rule R54). -/
theorem State.orRaise_writeRange_of_inRange {bs : List Byte} (h : s.base + bs.length ≤ 0x1000) :
    s.orRaise ((s.mem.writeRange s.base bs).map s.setMem) = .next (s.setMem (s.mem.writeBytes s.base bs)) := by
  rw [s.mem.writeRange_ok (.inr h)]; rfl

theorem State.orRaise_writeRange_of_beyond {bs : List Byte} (h0 : 0 < bs.length) (h : 0x1000 < s.base + bs.length) :
    s.orRaise ((s.mem.writeRange s.base bs).map s.setMem) = .next (s.raise (pastEnd s.base)) := by
  rw [s.mem.writeRange_error h0 h]; rfl

theorem exec_ldBVx_of_inRange (x : RegIdx) (h : s.base + 3 ≤ 0x1000) :
    exec (.ldBVx x) s = .next (s.setMem (s.mem.writeBytes s.base (decimalDigits (s.reg x)))) :=
  State.orRaise_writeRange_of_inRange h

theorem exec_ldBVx_of_beyond (x : RegIdx) (h : 0x1000 < s.base + 3) :
    exec (.ldBVx x) s = .next (s.raise (pastEnd s.base)) :=
  State.orRaise_writeRange_of_beyond (by simp) h

theorem exec_stRegs_of_inRange {x : RegIdx} (h : s.base + (x.toNat + 1) ≤ 0x1000) :
    exec (.stRegs x) s = .next (s.setMem (s.mem.writeBytes s.base (s.regsUpTo x))) :=
  State.orRaise_writeRange_of_inRange (by rwa [length_regsUpTo])

theorem exec_stRegs_of_beyond {x : RegIdx} (h : 0x1000 < s.base + (x.toNat + 1)) :
    exec (.stRegs x) s = .next (s.raise (pastEnd s.base)) :=
  State.orRaise_writeRange_of_beyond (by simp) (by rwa [length_regsUpTo])

theorem exec_ldRegs_of_inRange {x : RegIdx} (h : s.base + (x.toNat + 1) ≤ 0x1000) :
    exec (.ldRegs x) s = .next (s.loadRegs 0 (s.mem.bytesFrom s.base (x.toNat + 1))) := by
  change s.orRaise ((s.mem.readRange s.base (x.toNat + 1)).map _) = _
  rw [s.mem.readRange_ok (.inr h)]; rfl

theorem exec_ldRegs_of_beyond {x : RegIdx} (h : 0x1000 < s.base + (x.toNat + 1)) :
    exec (.ldRegs x) s = .next (s.raise (pastEnd s.base)) := by
  change s.orRaise ((s.mem.readRange s.base (x.toNat + 1)).map _) = _
  rw [s.mem.readRange_error (Nat.succ_pos _) h]; rfl

/-- The address a fault past the end of memory reports, for a base that is a 16-bit value. -/
theorem toNat_pastEnd_addr (w : Word) : (BitVec.ofNat 16 (max w.toNat 0x1000)).toNat = max w.toNat 0x1000 := by
  rw [BitVec.toNat_ofNat]
  exact Nat.mod_eq_of_lt (max_lt w.isLt (by decide))

/-- What the four memory instructions have in common when a byte is out of range: the fault is latched with the lowest
out-of-range address and nothing else is written (decisions D11, D12). -/
theorem exec_pastEnd_frame {i : Instr} (h : exec i s = .next (s.raise (pastEnd s.base))) :
    ∃ t a, exec i s = .next t ∧ t.status = .faulted (.memoryOutOfBounds a) ∧ a.toNat = max s.i.toNat 0x1000 ∧
      KeepsAllBut [.status] s t :=
  ⟨_, _, h, rfl, toNat_pastEnd_addr s.i, s.raise_keepsAllBut_status _⟩

end Machine

end Sys2Proof

end

/-! PROOFS. Noninterference (rules R11, R26, R78): what the execute phase of an instruction can do, said once as
`Effect`, and the frames of all 34 instructions drawn from it. -/

section

namespace Sys2Proof

namespace Machine

/-- What the execute phase of `i` can make of `s`: one constructor per update of State that some arm of `exec` ends in.
Each constructor carries what the tables of rules R11, R26 and R47 must allow `i` for that update. -/
inductive Effect (i : Instr) (s : State) : State → Prop
  | setReg {x : RegIdx} {b : Byte} (hv : Part.v ∈ mayWrite i) (hx : x ∈ mayWriteRegs i) : Effect i s (s.setReg x b)
  | setRegThenFlag {x : RegIdx} {b : Byte} {c : Bool} (hv : Part.v ∈ mayWrite i)
      (hx : [x, flagReg] ⊆ mayWriteRegs i) : Effect i s (s.setRegThenFlag x b c)
  | drawnSetReg {x : RegIdx} {b : Byte} (hv : [Part.v, .draws] ⊆ mayWrite i) (hx : x ∈ mayWriteRegs i) :
      Effect i s (s.drawn.setReg x b)
  | loadRegs {bs : List Byte} (hv : Part.v ∈ mayWrite i) (hlen : bs.length ≤ 16)
      (hx : ∀ j : RegIdx, j.toNat < bs.length → j ∈ mayWriteRegs i) : Effect i s (s.loadRegs 0 bs)
  | setPc {w : Word} (hpc : Part.pc ∈ mayWrite i) : Effect i s (s.setPc w)
  | setI {w : Word} (hi : Part.i ∈ mayWrite i) : Effect i s (s.setI w)
  | setDt {b : Byte} (hdt : Part.dt ∈ mayWrite i) : Effect i s (s.setDt b)
  | setSt {b : Byte} (hst : Part.st ∈ mayWrite i) : Effect i s (s.setSt b)
  | setFb {fb : Framebuffer} (hfb : Part.fb ∈ mayWrite i) : Effect i s (s.setFb fb)
  | setFbThenFlag {fb : Framebuffer} {c : Bool} (hv : [Part.v, .fb] ⊆ mayWrite i) (hx : flagReg ∈ mayWriteRegs i) :
      Effect i s ((s.setFb fb).setFlag c)
  | store {bs : List Byte} (hm : Part.mem ∈ mayWrite i) (hlen : bs.length = storedCount i)
      (hr : s.base + bs.length ≤ 0x1000) : Effect i s (s.setMem (s.mem.writeBytes s.base bs))
  | pushSetPc {w : Word} (h : s.sp.val < 16) (hp : [Part.sp, .stack, .pc] ⊆ mayWrite i) :
      Effect i s ((s.pushed h).setPc w)
  | pop (h : 0 < s.sp.val) (hp : [Part.pc, .sp] ⊆ mayWrite i) : Effect i s (s.popped h)
  | raise {f : FaultKind} (hs : Part.status ∈ mayWrite i) (hf : PayloadHonest (.faulted f)) : Effect i s (s.raise f)

variable (s : State)

/-- The fault past the end of memory carries an address outside it (rule R169). -/
theorem payloadHonest_pastEnd (w : Word) : PayloadHonest (.faulted (pastEnd w.toNat)) := by
  change 0x0FFF < (BitVec.ofNat 16 (max w.toNat 0x1000)).toNat
  rw [toNat_pastEnd_addr]; omega

/-- A skip is a write of pc, whether it is taken or not. -/
theorem Effect.skipIf {i : Instr} (hpc : Part.pc ∈ mayWrite i) (c : Bool) : Effect i s (s.skipIf c) := by
  rw [State.skipIf_eq_setPc]
  exact .setPc hpc

/-- The destinations of LdRegs are V0 to Vx (rule R131). -/
theorem mem_mayWriteRegs_ldRegs {x j : RegIdx} : j ∈ mayWriteRegs (.ldRegs x) ↔ j.toNat ≤ x.toNat := by
  simp only [mayWriteRegs, List.mem_map, List.mem_range]
  constructor
  · rintro ⟨k, hk, rfl⟩
    have := x.isLt
    simp only [BitVec.toNat_ofNat]; omega
  · exact fun h => ⟨j.toNat, by omega, BitVec.ofNat_toNat ..⟩

/-- Rule R78: the dispatch is exhaustive, and every arm ends in one of the updates of `Effect`. -/
theorem exec_effect (i : Instr) : ∃ t, exec i s = .next t ∧ Effect i s t := by
  cases i with
  | cls => exact ⟨_, exec_cls s, .setFb (by simp [mayWrite])⟩
  | ret =>
    by_cases h : 0 < s.sp.val
    · exact ⟨_, exec_ret_of_live h, .pop h (by simp [mayWrite])⟩
    · exact ⟨_, exec_ret_of_empty (by omega), .raise (by simp [mayWrite]) trivial⟩
  | call nnn =>
    by_cases h : s.sp.val < 16
    · exact ⟨_, exec_call_of_room nnn h, .pushSetPc h (by simp [mayWrite])⟩
    · exact ⟨_, exec_call_of_full nnn (by omega), .raise (by simp [mayWrite]) trivial⟩
  | jmp nnn => exact ⟨_, exec_jmp s nnn, .setPc (by simp [mayWrite])⟩
  | jmpV0 nnn => exact ⟨_, exec_jmpV0 s nnn, .setPc (by simp [mayWrite])⟩
  | seVx x kk => exact ⟨_, exec_seVx s x kk, .skipIf s (by simp [mayWrite]) _⟩
  | sneVx x kk => exact ⟨_, exec_sneVx s x kk, .skipIf s (by simp [mayWrite]) _⟩
  | seVxVy x y => exact ⟨_, exec_seVxVy s x y, .skipIf s (by simp [mayWrite]) _⟩
  | sneVxVy x y => exact ⟨_, exec_sneVxVy s x y, .skipIf s (by simp [mayWrite]) _⟩
  | skp x => exact ⟨_, exec_skp s x, .skipIf s (by simp [mayWrite]) _⟩
  | sknp x => exact ⟨_, exec_sknp s x, .skipIf s (by simp [mayWrite]) _⟩
  | ldVx x kk => exact ⟨_, exec_ldVx s x kk, .setReg (by simp [mayWrite]) (by simp [mayWriteRegs])⟩
  | addVx x kk => exact ⟨_, exec_addVx s x kk, .setReg (by simp [mayWrite]) (by simp [mayWriteRegs])⟩
  | ldVxVy x y => exact ⟨_, exec_ldVxVy s x y, .setReg (by simp [mayWrite]) (by simp [mayWriteRegs])⟩
  | or x y => exact ⟨_, exec_or s x y, .setReg (by simp [mayWrite]) (by simp [mayWriteRegs])⟩
  | and x y => exact ⟨_, exec_and s x y, .setReg (by simp [mayWrite]) (by simp [mayWriteRegs])⟩
  | xor x y => exact ⟨_, exec_xor s x y, .setReg (by simp [mayWrite]) (by simp [mayWriteRegs])⟩
  | ldVxDt x => exact ⟨_, exec_ldVxDt s x, .setReg (by simp [mayWrite]) (by simp [mayWriteRegs])⟩
  | rnd x kk => exact ⟨_, exec_rnd s x kk, .drawnSetReg (by simp [mayWrite]) (by simp [mayWriteRegs])⟩
  | add x y => exact ⟨_, exec_add s x y, .setRegThenFlag (by simp [mayWrite]) (by simp [mayWriteRegs, flagReg])⟩
  | sub x y => exact ⟨_, exec_sub s x y, .setRegThenFlag (by simp [mayWrite]) (by simp [mayWriteRegs, flagReg])⟩
  | subn x y => exact ⟨_, exec_subn s x y, .setRegThenFlag (by simp [mayWrite]) (by simp [mayWriteRegs, flagReg])⟩
  | shr x y => exact ⟨_, exec_shr s x y, .setRegThenFlag (by simp [mayWrite]) (by simp [mayWriteRegs, flagReg])⟩
  | shl x y => exact ⟨_, exec_shl s x y, .setRegThenFlag (by simp [mayWrite]) (by simp [mayWriteRegs, flagReg])⟩
  | ldI nnn => exact ⟨_, exec_ldI s nnn, .setI (by simp [mayWrite])⟩
  | addIVx x => exact ⟨_, exec_addIVx s x, .setI (by simp [mayWrite])⟩
  | ldFVx x => exact ⟨_, exec_ldFVx s x, .setI (by simp [mayWrite])⟩
  | ldDtVx x => exact ⟨_, exec_ldDtVx s x, .setDt (by simp [mayWrite])⟩
  | ldStVx x => exact ⟨_, exec_ldStVx s x, .setSt (by simp [mayWrite])⟩
  | ldVxKey x =>
    cases h : s.key with
    | some k => exact ⟨_, exec_ldVxKey_of_key x h, .setReg (by simp [mayWrite]) (by simp [mayWriteRegs])⟩
    | none => exact ⟨_, exec_ldVxKey_of_none x h, .setPc (by simp [mayWrite])⟩
  | drw x y n =>
    by_cases h : n.toNat = 0 ∨ s.base + n.toNat ≤ 0x1000
    · exact ⟨_, exec_drw_of_inRange x y h, .setFbThenFlag (by simp [mayWrite]) (by simp [mayWriteRegs, flagReg])⟩
    · exact ⟨_, exec_drw_of_beyond x y (by omega) (by omega), .raise (by simp [mayWrite]) (payloadHonest_pastEnd s.i)⟩
  | ldBVx x =>
    by_cases h : s.base + 3 ≤ 0x1000
    · exact ⟨_, exec_ldBVx_of_inRange x h, .store (by simp [mayWrite]) rfl h⟩
    · exact ⟨_, exec_ldBVx_of_beyond x (by omega), .raise (by simp [mayWrite]) (payloadHonest_pastEnd s.i)⟩
  | stRegs x =>
    by_cases h : s.base + (x.toNat + 1) ≤ 0x1000
    · exact ⟨_, exec_stRegs_of_inRange h, .store (by simp [mayWrite]) (length_regsUpTo s x) (by rwa [length_regsUpTo])⟩
    · exact ⟨_, exec_stRegs_of_beyond (by omega), .raise (by simp [mayWrite]) (payloadHonest_pastEnd s.i)⟩
  | ldRegs x =>
    by_cases h : s.base + (x.toNat + 1) ≤ 0x1000
    · refine ⟨_, exec_ldRegs_of_inRange h, .loadRegs (by simp [mayWrite]) ?_ fun j hj => ?_⟩
      · rw [Memory.length_bytesFrom]; exact x.isLt
      · rw [Memory.length_bytesFrom] at hj
        exact mem_mayWriteRegs_ldRegs.mpr (Nat.le_of_lt_succ hj)
    · exact ⟨_, exec_ldRegs_of_beyond (by omega), .raise (by simp [mayWrite]) (payloadHonest_pastEnd s.i)⟩

variable {s} {t : State} {i : Instr}

theorem effect_of_exec (h : exec i s = .next t) : Effect i s t := by
  obtain ⟨u, hu, he⟩ := exec_effect s i
  rwa [Host.Outcome.next.inj (h.symm.trans hu)]

/-! ### What each effect leaves unchanged -/

/-- The access matrix, for an effect: each update's own frame, within the parts the instruction may write. -/
theorem Effect.keepsAllBut (h : Effect i s t) : KeepsAllBut (mayWrite i) s t := by
  cases h with
  | setReg hv hx => exact (s.setReg_keepsAllBut_v _ _).mono (by simpa using hv)
  | setRegThenFlag hv hx => exact (s.setRegThenFlag_keepsAllBut_v _ _ _).mono (by simpa using hv)
  | drawnSetReg hv hx => exact (s.drawn_setReg_keepsAllBut_v_draws _ _).mono hv
  | loadRegs hv hlen hx => exact (s.loadRegs_keepsAllBut_v _ _).mono (by simpa using hv)
  | setPc hpc => exact (s.setPc_keepsAllBut_pc _).mono (by simpa using hpc)
  | setI hi => exact (s.setI_keepsAllBut_i _).mono (by simpa using hi)
  | setDt hdt => exact (s.setDt_keepsAllBut_dt _).mono (by simpa using hdt)
  | setSt hst => exact (s.setSt_keepsAllBut_st _).mono (by simpa using hst)
  | setFb hfb => exact (s.setFb_keepsAllBut_fb _).mono (by simpa using hfb)
  | setFbThenFlag hv hx => exact (s.setFb_setFlag_keepsAllBut_v_fb _ _).mono hv
  | store hm hlen hr => exact (s.setMem_keepsAllBut_mem _).mono (by simpa using hm)
  | pushSetPc hsp hp => exact ((s.pushed_keepsAllBut hsp).trans ((s.pushed hsp).setPc_keepsAllBut_pc _)).mono hp
  | pop hsp hp => exact (s.popped_keepsAllBut hsp).mono hp
  | raise hs hf => exact (s.raise_keepsAllBut_status _).mono (by simpa using hs)

/-- An effect changes no register but those the instruction may write. -/
theorem Effect.keepsRegsBut (h : Effect i s t) : KeepsRegsBut (mayWriteRegs i) s t := by
  intro j hj
  have hne : ∀ {x}, x ∈ mayWriteRegs i → j ≠ x := fun hx e => hj (e ▸ hx)
  cases h with
  | setReg hv hx => rw [State.reg_setReg, if_neg (hne hx)]
  | setRegThenFlag hv hx => exact s.setRegThenFlag_keepsRegsBut _ _ _ j (fun hm => hj (hx hm))
  | drawnSetReg hv hx => rw [State.reg_setReg, if_neg (hne hx), State.reg_drawn]
  | loadRegs hv hlen hx =>
    rw [State.reg_loadRegs _ _ _ (by omega), if_neg]
    exact fun hlt => hj (hx j (by omega))
  | setFbThenFlag hv hx => rw [State.reg_setFlag, if_neg (hne hx), State.reg_setFb]
  | setPc | setI | setDt | setSt | setFb | store | pushSetPc | pop | raise => rfl

/-- What an effect does to memory: nothing, or a store of the instruction's bytes, in range, from I (rules R47, R54). -/
theorem Effect.mem_eq_or_store (h : Effect i s t) :
    t.mem = s.mem ∨ ∃ bs, bs.length = storedCount i ∧ s.base + bs.length ≤ 0x1000 ∧
      t.mem = s.mem.writeBytes s.base bs := by
  cases h with
  | store hm hlen hr => exact .inr ⟨_, hlen, hr, rfl⟩
  | loadRegs => exact .inl (s.loadRegs_mem _ _)
  | setReg | setRegThenFlag | drawnSetReg | setPc | setI | setDt | setSt | setFb | setFbThenFlag | pushSetPc | pop
  | raise => exact .inl rfl

/-- What an effect does to STATUS: nothing, or it is a fault, and then it is nothing else (rules R54, R166). -/
theorem Effect.status_eq_or_raise (h : Effect i s t) :
    t.status = s.status ∨ ∃ f, t = s.raise f ∧ PayloadHonest (.faulted f) := by
  cases h with
  | raise hs hf => exact .inr ⟨_, rfl, hf⟩
  | loadRegs => exact .inl (s.loadRegs_status _ _)
  | setReg | setRegThenFlag | drawnSetReg | setPc | setI | setDt | setSt | setFb | setFbThenFlag | store | pushSetPc
  | pop => exact .inl rfl

/-- The access matrix, for one part: a part the instruction may not write is as it was. -/
theorem exec_unchanged (h : exec i s = .next t) {p : Part} (hp : p ∉ mayWrite i) : Unchanged s t p :=
  (effect_of_exec h).keepsAllBut p hp

/-! ### The key latch and the random source (rules R20, R22, R81, R84) -/

/-- `s` with the two things the host supplies replaced: what the key latch holds, and where its random source is. -/
def State.withHost (s : State) (k : Option Nibble) (d : Nat) : State := { s with key := k, rndDraws := d }

variable (k : Option Nibble) (d : Nat)

theorem State.skipIf_withHost (c : Bool) : (s.withHost k d).skipIf c = (s.skipIf c).withHost k d := by
  cases c <;> rfl

theorem State.loadRegs_withHost (j : Nat) (bs : List Byte) :
    (s.withHost k d).loadRegs j bs = (s.loadRegs j bs).withHost k d := by
  induction bs generalizing s j with
  | nil => rfl
  | cons b bs ih => exact ih (s := s.setReg (BitVec.ofNat 4 j) b) (j + 1)

theorem State.setKey_eq_withHost (s : State) : s.setKey k = s.withHost k s.rndDraws := rfl

/-- An instruction other than Rnd runs alike wherever the random source is, and whatever the latch holds unless it is
one of the three key instructions. -/
theorem exec_withHost (hkey : k = s.key ∨ ∀ x, i ≠ .skp x ∧ i ≠ .sknp x ∧ i ≠ .ldVxKey x) (hrnd : ∀ x kk, i ≠ .rnd x kk)
    (h : exec i s = .next t) : exec i (s.withHost k d) = .next (t.withHost k d) := by
  have answers : ∀ {u v}, exec i s = .next u → exec i (s.withHost k d) = .next v → v = u.withHost k d →
      exec i (s.withHost k d) = .next (t.withHost k d) := by
    rintro u v hu hv rfl
    rw [hv, Host.Outcome.next.inj (h.symm.trans hu)]
  cases i with
  | skp x =>
    obtain rfl | hno := hkey
    · exact answers rfl rfl (State.skipIf_withHost _ d _)
    · exact absurd rfl (hno x).1
  | sknp x =>
    obtain rfl | hno := hkey
    · exact answers rfl rfl (State.skipIf_withHost _ d _)
    · exact absurd rfl (hno x).2.1
  | ldVxKey x =>
    obtain rfl | hno := hkey
    · obtain hk | ⟨k, hk⟩ := Option.eq_none_or_eq_some s.key
      · exact answers (exec_ldVxKey_of_none x hk) (exec_ldVxKey_of_none (s := s.withHost s.key d) x hk) rfl
      · exact answers (exec_ldVxKey_of_key x hk) (exec_ldVxKey_of_key (s := s.withHost s.key d) x hk) rfl
    · exact absurd rfl (hno x).2.2
  | rnd x kk => exact absurd rfl (hrnd x kk)
  | seVx | sneVx | seVxVy | sneVxVy => exact answers rfl rfl (State.skipIf_withHost k d _)
  | ret =>
    by_cases hsp : 0 < s.sp.val
    · exact answers (exec_ret_of_live hsp) (exec_ret_of_live (s := s.withHost k d) hsp) rfl
    · have hsp : s.sp = 0 := by omega
      exact answers (exec_ret_of_empty hsp) (exec_ret_of_empty (s := s.withHost k d) hsp) rfl
  | call nnn =>
    by_cases hsp : s.sp.val < 16
    · exact answers (exec_call_of_room nnn hsp) (exec_call_of_room (s := s.withHost k d) nnn hsp) rfl
    · have hsp : s.sp = 16 := by omega
      exact answers (exec_call_of_full nnn hsp) (exec_call_of_full (s := s.withHost k d) nnn hsp) rfl
  | drw x y n =>
    by_cases hr : n.toNat = 0 ∨ s.base + n.toNat ≤ 0x1000
    · exact answers (exec_drw_of_inRange x y hr) (exec_drw_of_inRange (s := s.withHost k d) x y hr) rfl
    · have h0 : 0 < n.toNat := by omega
      have hb : 0x1000 < s.base + n.toNat := by omega
      exact answers (exec_drw_of_beyond x y h0 hb) (exec_drw_of_beyond (s := s.withHost k d) x y h0 hb) rfl
  | ldBVx x =>
    by_cases hr : s.base + 3 ≤ 0x1000
    · exact answers (exec_ldBVx_of_inRange x hr) (exec_ldBVx_of_inRange (s := s.withHost k d) x hr) rfl
    · have hb : 0x1000 < s.base + 3 := by omega
      exact answers (exec_ldBVx_of_beyond x hb) (exec_ldBVx_of_beyond (s := s.withHost k d) x hb) rfl
  | stRegs x =>
    by_cases hr : s.base + (x.toNat + 1) ≤ 0x1000
    · exact answers (exec_stRegs_of_inRange hr) (exec_stRegs_of_inRange (s := s.withHost k d) hr) rfl
    · have hb : 0x1000 < s.base + (x.toNat + 1) := by omega
      exact answers (exec_stRegs_of_beyond hb) (exec_stRegs_of_beyond (s := s.withHost k d) hb) rfl
  | ldRegs x =>
    by_cases hr : s.base + (x.toNat + 1) ≤ 0x1000
    · exact answers (exec_ldRegs_of_inRange hr) (exec_ldRegs_of_inRange (s := s.withHost k d) hr)
        (State.loadRegs_withHost k d 0 _)
    · have hb : 0x1000 < s.base + (x.toNat + 1) := by omega
      exact answers (exec_ldRegs_of_beyond hb) (exec_ldRegs_of_beyond (s := s.withHost k d) hb) rfl
  | cls | jmp | jmpV0 | ldVx | addVx | ldVxVy | or | and | xor | add | sub | subn | shr | shl | ldI | ldVxDt | ldDtVx
  | ldStVx | addIVx | ldFVx => exact answers rfl rfl rfl

/-- No instruction writes the key latch (rule R20). -/
theorem key_notMem_mayWrite (i : Instr) : Part.key ∉ mayWrite i := by
  cases i <;> simp [mayWrite]

/-- Only Rnd draws from the random source (rule R22). -/
theorem draws_notMem_mayWrite (h : ∀ x kk, i ≠ .rnd x kk) : Part.draws ∉ mayWrite i := by
  cases i with
  | rnd x kk => exact absurd rfl (h x kk)
  | _ => simp [mayWrite]

end Machine

/-! ### The statements -/

open Machine

/-- Settles O16: each effect's own frame lies within the instruction's row of the matrix. -/
theorem accessMatrixHolds : Obligations.AccessMatrixHolds :=
  fun _ _ _ h => (effect_of_exec h).keepsAllBut

/-- Settles O17: each effect writes only registers its instruction lists. -/
theorem onlyDestinationsAndVfChange : Obligations.OnlyDestinationsAndVfChange :=
  fun _ _ _ h => (effect_of_exec h).keepsRegsBut

/-- Settles O18: memory is as it was, or the instruction's bytes were stored from I. -/
theorem onlyStoredBytesChange : Obligations.OnlyStoredBytesChange := by
  intro i s t h a ha
  obtain hm | ⟨bs, hlen, -, hm⟩ := (effect_of_exec h).mem_eq_or_store
  · rw [hm]
  · rw [hm, Memory.read_writeBytes, if_neg (by rwa [hlen])]

/-- Settles O19: all but Rnd are covered by `exec_withHost`, and Rnd's one write does not read the latch. -/
theorem onlyKeyInstructionsSeeTheKey : Obligations.OnlyKeyInstructionsSeeTheKey := by
  intro i s t k hkey h
  by_cases hrnd : ∃ x kk, i = .rnd x kk
  · obtain ⟨x, kk, rfl⟩ := hrnd
    rw [← Host.Outcome.next.inj ((exec_rnd s x kk).symm.trans h)]
    rfl
  · have hrnd : ∀ x kk, i ≠ .rnd x kk := fun x kk e => hrnd ⟨x, kk, e⟩
    have hd : t.rndDraws = s.rndDraws := exec_unchanged h (draws_notMem_mayWrite hrnd)
    rw [State.setKey_eq_withHost, State.setKey_eq_withHost, hd]
    exact exec_withHost k s.rndDraws (.inr hkey) hrnd h

/-- Settles O20: no instruction but Rnd may write the count of draws, and `exec_withHost` with the latch as it is says
the rest. -/
theorem onlyRndDrawsARandomByte : Obligations.OnlyRndDrawsARandomByte := by
  intro i s t d hrnd h
  have hk : t.key = s.key := exec_unchanged h (key_notMem_mayWrite i)
  have hrun := exec_withHost s.key d (.inl rfl) hrnd h
  refine ⟨exec_unchanged h (draws_notMem_mayWrite hrnd), hrun.trans ?_⟩
  rw [← hk]
  rfl

end Sys2Proof

end

/-! PROOFS. Steps and faults (spec files 40_step_cycle.md and 60_exceptions.md): the fetch, what a Step answers, which
fault it meets, that faults are precise, and the program counter law. -/

section

namespace Sys2Proof

namespace Machine

variable {s t : State} {i : Instr}

/-! ### A Step by cases -/

theorem step_of_pending (h : s.pending = some i) : step s = exec i s.advance := by
  obtain ⟨hrun, hpc, hdec⟩ := State.pending_eq_some.mp h
  simp only [step, hrun, s.fetch_ok hpc, hdec]

theorem step_of_fetch_error (hrun : s.status = .running) (hpc : 0x0FFE < s.pc.toNat) :
    step s = .next (s.raise (pastEnd s.pc.toNat)) := by
  simp only [step, hrun, s.fetch_error hpc, pastEnd]

theorem step_of_unrecognized {w u : Word} (hrun : s.status = .running) (hpc : s.pc.toNat ≤ 0x0FFE)
    (hw : s.mem.word s.pc.toNat = w) (hdec : decode w = .unrecognized u) :
    step s = .next (s.advance.raise (.decodeUnrecognized u)) := by
  simp only [step, hrun, s.fetch_ok hpc, hw, hdec]

theorem step_of_faulted (h : s.status ≠ .running) : step s = .next s := by
  cases hs : s.status with
  | running => exact absurd hs h
  | faulted f => simp only [step, hs]

/-- The fetch's advance does not wrap where the fetch succeeds (rule R76). -/
theorem State.toNat_advance_pc (h : s.pc.toNat ≤ 0x0FFE) : (s.pc + 2#16).toNat = s.pc.toNat + 2 := by
  rw [BitVec.toNat_add]
  exact Nat.mod_eq_of_lt (by simp; omega)

/-- Everything a Step can make of `s` (rules R75 to R80): nothing; a fault of the fetch; a fault of the decode, after
the fetch's advance; or the execute phase of the pending instruction. -/
inductive StepEffect (s : State) : State → Prop
  | idle : StepEffect s s
  | fetchFault (hpc : 0x0FFE < s.pc.toNat) : StepEffect s (s.raise (pastEnd s.pc.toNat))
  | decodeFault {w : Word} (hpc : s.pc.toNat ≤ 0x0FFE) (hdec : decode w = .unrecognized w) :
      StepEffect s (s.advance.raise (.decodeUnrecognized w))
  | execute {i : Instr} {t : State} (hi : s.pending = some i) (hexec : exec i s.advance = .next t) : StepEffect s t

/-- Every Step answers a next state, by one of these ways. -/
theorem step_effect (s : State) : ∃ t, step s = .next t ∧ StepEffect s t := by
  obtain ⟨-, hs⟩ | ⟨-, hpc, hs⟩ | ⟨-, hpc, w, hdec, hs⟩ | ⟨i, hi, hs⟩ := step_cases s
  · exact ⟨s, hs, .idle⟩
  · exact ⟨_, hs, .fetchFault hpc⟩
  · obtain rfl := decode_unrecognized hdec
    exact ⟨_, hs, .decodeFault hpc hdec⟩
  · obtain ⟨t, ht, -⟩ := exec_effect s.advance i
    exact ⟨t, hs.trans ht, .execute hi ht⟩

theorem stepEffect_of_step (h : step s = .next t) : StepEffect s t := by
  obtain ⟨u, hu, he⟩ := step_effect s
  rwa [Host.Outcome.next.inj (h.symm.trans hu)]

theorem tick_of_faulted (h : s.status ≠ .running) : tick s = s := by
  cases hs : s.status with
  | running => exact absurd hs h
  | faulted f => simp only [tick, hs]

/-- A decode fault writes STATUS, after the fetch has advanced pc (decision D13). -/
theorem State.advance_raise_keepsAllBut (s : State) (f : FaultKind) :
    KeepsAllBut [.pc, .status] s (s.advance.raise f) :=
  s.advance_keepsAllBut_pc.trans (s.advance.raise_keepsAllBut_status f)

/-! ### Events -/

theorem applyEvent_answers (e : Event) (s : State) : ∃ t, applyEvent e s = .next t := by
  cases e with
  | step => exact (step_effect s).imp fun _ h => h.1
  | reset rom => exact ⟨_, rfl⟩
  | tick => exact ⟨_, rfl⟩
  | key k => exact ⟨_, rfl⟩

theorem runEvents_cons {e : Event} {es : List Event} (h : applyEvent e s = .next t) :
    runEvents (e :: es) s = runEvents es t := by
  rw [runEvents, h]

/-- A run's first event answers some state, and the rest runs from there. -/
theorem runEvents_cons_inv {e : Event} {es : List Event} {u : State} (h : runEvents (e :: es) s = .next u) :
    ∃ t, applyEvent e s = .next t ∧ runEvents es t = .next u := by
  obtain ⟨t, ht⟩ := applyEvent_answers e s
  exact ⟨t, ht, (runEvents_cons ht).symm.trans h⟩

theorem runEvents_answers (es : List Event) (s : State) : ∃ t, runEvents es s = .next t := by
  induction es generalizing s with
  | nil => exact ⟨s, rfl⟩
  | cons e es ih =>
    obtain ⟨t, ht⟩ := applyEvent_answers e s
    rw [runEvents_cons ht]
    exact ih t

/-- Packaged induction: what every event keeps, every run keeps. -/
theorem runEvents_keeps {P : State → Prop} {es : List Event}
    (hstep : ∀ e ∈ es, ∀ s t, P s → applyEvent e s = .next t → P t) (hs : P s)
    (h : runEvents es s = .next t) : P t := by
  induction es generalizing s with
  | nil => exact Host.Outcome.next.inj h ▸ hs
  | cons e es ih =>
    obtain ⟨u, hu, hrest⟩ := runEvents_cons_inv h
    exact ih (fun e' he' => hstep e' (List.mem_cons_of_mem e he')) (hstep e List.mem_cons_self s u hs hu) hrest

/-- A FAULTED core under an event other than Reset: nothing moves but the latch (rules R80, R178). -/
theorem applyEvent_of_faulted {e : Event} (hs : s.status ≠ .running) (he : ∀ rom, e ≠ .reset rom)
    (h : applyEvent e s = .next t) : t = { s with key := t.key } := by
  cases e with
  | reset rom => exact absurd rfl (he rom)
  | step => rw [← Host.Outcome.next.inj ((step_of_faulted hs).symm.trans h)]
  | key k => rw [← Host.Outcome.next.inj h]; rfl
  | tick => rw [← Host.Outcome.next.inj h, tick_of_faulted hs]

/-! ### The fault table (rules R168 to R171, R173) -/

/-- The table's bounds check is the machine's, for a natural number of bytes. -/
theorem beyond_eq_rangeFault (s : State) (n : Nat) : faultOf.beyond s (n : Int) = rangeFault s.base n := by
  unfold faultOf.beyond rangeFault State.base
  exact if_congr (by omega) rfl rfl

theorem faultOf_of_fetch_error (h : 0x0FFE < s.pc.toNat) : faultOf s = some (pastEnd s.pc.toNat) := by
  rw [faultOf, if_pos h]; rfl

theorem faultOf_of_unrecognized {w : Word} (hpc : s.pc.toNat ≤ 0x0FFE)
    (hdec : decode (s.mem.word s.pc.toNat) = .unrecognized w) : faultOf s = some (.decodeUnrecognized w) := by
  rw [Memory.word] at hdec
  rw [faultOf, if_neg (by omega), hdec]

/-- The one check of an instruction's own arm, on the state its execute phase begins in. -/
def armFault (s : State) : Instr → Option FaultKind
  | .ret => if s.sp = 0 then some .stackUnderflow else none
  | .call _ => if s.sp = 16 then some .stackOverflow else none
  | .drw _ _ n => rangeFault s.base n.toNat
  | .ldBVx _ => rangeFault s.base 3
  | .stRegs x | .ldRegs x => rangeFault s.base (x.toNat + 1)
  | _ => none

theorem faultOf_of_pending (h : s.pending = some i) : faultOf s = armFault s i := by
  obtain ⟨-, hpc, hdec⟩ := State.pending_eq_some.mp h
  rw [Memory.word] at hdec
  rw [faultOf, if_neg (by omega), hdec]
  cases i with
  | drw x y n => exact beyond_eq_rangeFault s n.toNat
  | ldBVx x => exact beyond_eq_rangeFault s 3
  | stRegs x | ldRegs x => exact beyond_eq_rangeFault s (x.toNat + 1)
  | _ => rfl

/-- The status after an instruction is what its arm's check says. -/
theorem exec_status (h : exec i s = .next t) :
    t.status = (armFault s i).elim s.status .faulted := by
  have answers : ∀ {u}, exec i s = .next u → t = u := fun hu => Host.Outcome.next.inj (h.symm.trans hu)
  cases i with
  | ret =>
    by_cases hsp : s.sp = 0
    · rw [answers (exec_ret_of_empty hsp), armFault, if_pos hsp]; rfl
    · rw [answers (exec_ret_of_live (by omega)), armFault, if_neg hsp]; rfl
  | call nnn =>
    by_cases hsp : s.sp = 16
    · rw [answers (exec_call_of_full nnn hsp), armFault, if_pos hsp]; rfl
    · rw [answers (exec_call_of_room nnn (by omega)), armFault, if_neg hsp]; rfl
  | drw x y n =>
    obtain ⟨hf, hr⟩ | ⟨hf, h0, hr⟩ := rangeFault_cases s.base n.toNat
    · rw [answers (exec_drw_of_inRange x y hr), armFault, hf]; rfl
    · rw [answers (exec_drw_of_beyond x y h0 hr), armFault, hf]; rfl
  | ldBVx x =>
    obtain ⟨hf, hr⟩ | ⟨hf, -, hr⟩ := rangeFault_cases s.base 3
    · rw [answers (exec_ldBVx_of_inRange x (by omega)), armFault, hf]; rfl
    · rw [answers (exec_ldBVx_of_beyond x hr), armFault, hf]; rfl
  | stRegs x =>
    obtain ⟨hf, hr⟩ | ⟨hf, -, hr⟩ := rangeFault_cases s.base (x.toNat + 1)
    · rw [answers (exec_stRegs_of_inRange (by omega)), armFault, hf]; rfl
    · rw [answers (exec_stRegs_of_beyond hr), armFault, hf]; rfl
  | ldRegs x =>
    obtain ⟨hf, hr⟩ | ⟨hf, -, hr⟩ := rangeFault_cases s.base (x.toNat + 1)
    · rw [answers (exec_ldRegs_of_inRange (by omega)), armFault, hf]; exact s.loadRegs_status _ _
    · rw [answers (exec_ldRegs_of_beyond hr), armFault, hf]; rfl
  | _ => exact exec_unchanged h (p := .status) (by simp [mayWrite])

/-! ### The program counter law (rule R79) -/

theorem advance_skipIf_pc (c : Bool) : (s.advance.skipIf c).pc = s.pc + if c then 4#16 else 2#16 := by
  cases c
  · rfl
  · exact BitVec.add_assoc s.pc 2#16 2#16

/-- A skip's table entry is `skipIf` on A + 2: A + 4 when `p` holds (SeVx, SeVxVy, Skp). -/
theorem advance_skipIf_decide_pc (p : Prop) [Decidable p] :
    (s.advance.skipIf (decide p)).pc = s.pc + if p then 4#16 else 2#16 := by
  rw [advance_skipIf_pc]
  by_cases h : p <;> simp [h]

/-- The opposite entry: A + 4 when `p` fails (SneVx, SneVxVy, Sknp). -/
theorem advance_skipIf_decide_not_pc (p : Prop) [Decidable p] :
    (s.advance.skipIf (decide (¬ p))).pc = s.pc + if p then 2#16 else 4#16 := by
  rw [advance_skipIf_pc]
  by_cases h : p <;> simp [h]

theorem sub_advance_pc : s.pc + 2#16 - 2#16 = s.pc := by simp

theorem toNat_jmpV0_target (nnn : Addr12) (b : Byte) :
    (zextAddr nnn + zextByte b).toNat = nnn.toNat + b.toNat := by
  have := nnn.isLt
  have := b.isLt
  rw [BitVec.toNat_add, toNat_zextAddr, toNat_zextByte]
  omega

theorem keyPressed_eq_decide (s : State) (b : Byte) :
    s.keyPressed b = decide (s.key.map BitVec.toNat = some b.toNat) := by
  rw [Bool.eq_iff_iff, keyPressed_iff, decide_eq_true_iff]

/-- Where pc is after the execute phase of an instruction that completes. -/
theorem exec_pcAfter (hrun : t.status = .running) (h : exec i s.advance = .next t) : PcAfter s t i := by
  have answers : ∀ {u}, exec i s.advance = .next u → t = u := fun hu => Host.Outcome.next.inj (h.symm.trans hu)
  cases i with
  | jmp nnn => rw [answers (exec_jmp _ nnn)]; exact toNat_zextAddr nnn
  | jmpV0 nnn => rw [answers (exec_jmpV0 _ nnn)]; exact toNat_jmpV0_target nnn _
  | call nnn =>
    by_cases hsp : s.sp = 16
    · rw [answers (exec_call_of_full nnn hsp)] at hrun; cases hrun
    · rw [answers (exec_call_of_room nnn (s := s.advance) (by simp; omega))]; exact toNat_zextAddr nnn
  | ret =>
    by_cases hsp : s.sp = 0
    · rw [answers (exec_ret_of_empty hsp)] at hrun; cases hrun
    · have hlive : 0 < s.sp.val := by omega
      rw [answers (exec_ret_of_live (s := s.advance) hlive)]; exact ⟨hlive, rfl⟩
  | seVx x kk => rw [answers (exec_seVx _ x kk)]; exact advance_skipIf_decide_pc _
  | sneVx x kk => rw [answers (exec_sneVx _ x kk)]; exact advance_skipIf_decide_not_pc _
  | seVxVy x y => rw [answers (exec_seVxVy _ x y)]; exact advance_skipIf_decide_pc _
  | sneVxVy x y => rw [answers (exec_sneVxVy _ x y)]; exact advance_skipIf_decide_not_pc _
  | skp x => rw [answers (exec_skp _ x), keyPressed_eq_decide]; exact advance_skipIf_decide_pc _
  | sknp x =>
    rw [answers (exec_sknp _ x), keyPressed_eq_decide, ← decide_not]
    exact advance_skipIf_decide_not_pc _
  | ldVxKey x =>
    obtain hk | ⟨k, hk⟩ := Option.eq_none_or_eq_some s.key
    · rw [answers (exec_ldVxKey_of_none (s := s.advance) x hk), PcAfter, if_pos hk]
      exact sub_advance_pc.trans (BitVec.add_zero s.pc).symm
    · rw [answers (exec_ldVxKey_of_key (s := s.advance) x hk), PcAfter, if_neg (by simp [hk])]; rfl
  | _ => exact exec_unchanged h (p := .pc) (by simp [mayWrite])

/-! ### The key wait (rule R151) -/

/-- While no key is down, a Step at an LdVxKey leaves the state as it was (rule R151). -/
theorem step_keyWait {s : State} {x : RegIdx} (hi : s.pending = some (.ldVxKey x)) (hk : s.key = none) :
    step s = .next s := by
  rw [step_of_pending hi, exec_ldVxKey_of_none (s := s.advance) x hk, State.advance_pc, sub_advance_pc]
  rfl

/-- The latch is no part of what a Step fetches (rule R84). -/
theorem State.pending_setKey_eq_some {s : State} {k : Option Nibble} {i : Instr} :
    (s.setKey k).pending = some i ↔ s.pending = some i := by
  rw [State.pending_eq_some, State.pending_eq_some]
  rfl

end Machine

/-! ### The statements -/

open Machine

/-- Settles O6: the bounds check of two bytes, and `wordOfBytes` as a number. -/
theorem fetchIsBigEndianAndBounded : Obligations.FetchIsBigEndianAndBounded := by
  intro m a
  refine ⟨fun h => ⟨_, m.readWord_ok h, toNat_wordOfBytes _ _⟩, fun h ha => ⟨_, m.readWord_error h, ?_⟩⟩
  exact toNat_pastEnd_addr (BitVec.ofNatLT a ha)

/-- Settles O7: `decodeBytes` on the two bytes at pc is `decode` on the word fetched there. -/
theorem stepRunsTheDecodedInstruction : Obligations.StepRunsTheDecodedInstruction := by
  intro s i hrun hpc hdec
  refine step_of_pending (State.pending_eq_some.mpr ⟨hrun, hpc, ?_⟩)
  rw [decodeBytes_cons_cons] at hdec
  rw [Memory.word]
  split at hdec
  · next j hj => rw [hj, (DecodedBytes.instr.inj hdec).1]
  · cases hdec

/-- Settles O8: the fetch's fault is raised on the state as it is. -/
theorem fetchFaultKeepsPc : Obligations.FetchFaultKeepsPc := by
  intro s hrun hpc
  exact ⟨_, _, step_of_fetch_error hrun hpc, rfl, toNat_pastEnd_addr s.pc, s.raise_keepsAllBut_status _⟩

/-- Settles O9: the decode's fault is raised after the fetch has advanced pc. -/
theorem unrecognizedWordFaults : Obligations.UnrecognizedWordFaults := by
  intro s w hrun hpc hw hdec
  exact ⟨_, step_of_unrecognized hrun hpc hw hdec, rfl, State.toNat_advance_pc hpc, s.advance_raise_keepsAllBut _⟩

/-- Settles O10, by induction over the events: each one keeps "`s` but for the latch". -/
theorem faultedCoreIsIdleUntilReset : Obligations.FaultedCoreIsIdleUntilReset := by
  intro es s t hs hno h
  refine runEvents_keeps (P := fun u => u = { s with key := u.key }) (fun e he u v hu hv => ?_) rfl h
  have hfaulted : u.status ≠ .running := by rw [hu]; exact hs
  rw [applyEvent_of_faulted hfaulted (fun rom hrom => hno rom (hrom ▸ he)) hv, hu]

/-- Settles O11: `exec_effect`, `step_effect`, and induction over the events. -/
theorem everyInstructionAndEventAnswersNext : Obligations.EveryInstructionAndEventAnswersNext :=
  ⟨fun i s => (exec_effect s i).imp fun _ h => h.1, fun s => (step_effect s).imp fun _ h => h.1, runEvents_answers⟩

/-- Settles O12: the execute phase's table, and the entry that a Call with room stores. -/
theorem programCounterLaw : Obligations.ProgramCounterLaw := by
  intro s t i hi hstep hrun
  rw [step_of_pending hi] at hstep
  refine ⟨exec_pcAfter hrun hstep, ?_⟩
  rintro nnn rfl
  by_cases hsp : s.sp = 16
  · rw [Host.Outcome.next.inj (hstep.symm.trans (exec_call_of_full nnn hsp))] at hrun
    cases hrun
  · have hroom : s.sp.val < 16 := by omega
    rw [Host.Outcome.next.inj (hstep.symm.trans (exec_call_of_room (s := s.advance) nnn hroom))]
    exact ⟨hroom, by simp [State.pushed]⟩

/-- Settles O13: the fetch check, the decode and the arm's check, in the order of `step_cases`. -/
theorem faultsAreExactlyTheSpecs : Obligations.FaultsAreExactlyTheSpecs := by
  intro s hrun
  obtain ⟨⟨f, hf⟩, -⟩ | ⟨-, hpc, hs⟩ | ⟨-, hpc, w, hdec, hs⟩ | ⟨i, hi, hs⟩ := step_cases s
  · rw [hrun] at hf; cases hf
  · exact ⟨_, hs, by rw [faultOf_of_fetch_error hpc]; rfl⟩
  · exact ⟨_, hs, by rw [faultOf_of_unrecognized hpc hdec]; rfl⟩
  · obtain ⟨t, ht, -⟩ := exec_effect s.advance i
    refine ⟨t, hs.trans ht, ?_⟩
    have harm : armFault s.advance i = armFault s i := by cases i <;> rfl
    rw [exec_status ht, faultOf_of_pending hi, harm, State.advance_status, hrun]
    cases armFault s i <;> rfl

/-- Settles O14: a Step that faults is a `raise` on the state it began in, or on the one the fetch left. -/
theorem faultsArePrecise : Obligations.FaultsArePrecise := by
  intro s t hrun hstep hfault
  cases stepEffect_of_step hstep with
  | idle => exact absurd hrun hfault
  | fetchFault hpc => exact ⟨(s.raise_keepsAllBut_status _).mono (by simp), by rw [if_pos hpc]; rfl⟩
  | decodeFault hpc hdec => exact ⟨s.advance_raise_keepsAllBut _, by rw [if_neg (by omega)]; rfl⟩
  | execute hi hexec =>
    obtain ⟨-, hpc, -⟩ := State.pending_eq_some.mp hi
    obtain hst | ⟨f, rfl, -⟩ := (effect_of_exec hexec).status_eq_or_raise
    · exact absurd (hst.trans hrun) hfault
    · exact ⟨s.advance_raise_keepsAllBut _, by rw [if_neg (by omega)]; rfl⟩

/-- Settles O15: the jump writes the pc that is there, over the fetch's advance. -/
theorem jumpToSelfIsAFixedPoint : Obligations.JumpToSelfIsAFixedPoint := by
  intro s nnn hi htarget
  have hpc : zextAddr nnn = s.pc := BitVec.eq_of_toNat_eq ((toNat_zextAddr nnn).trans htarget)
  rw [step_of_pending hi, exec_jmp, hpc]
  rfl

/-- Settles O21: only Cls and Drw may write pixels, and a Drw that does not report the change is one that faults. -/
theorem fbChangedMissesNothing : Obligations.FbChangedMissesNothing := by
  intro s t hstep hno r c
  suffices hfb : t.fb = s.fb by rw [hfb]
  cases stepEffect_of_step hstep with
  | idle | fetchFault | decodeFault => rfl
  | @execute i t hi hexec =>
    cases i with
    | cls => simp [fbChanged, hi] at hno
    | drw x y n =>
      have hr : (rangeFault s.base n.toNat).isSome = true := by simpa [fbChanged, hi] using hno
      obtain ⟨hnone, -⟩ | ⟨-, h0, hb⟩ := rangeFault_cases s.base n.toNat
      · rw [hnone] at hr; cases hr
      · rw [Host.Outcome.next.inj (hexec.symm.trans (exec_drw_of_beyond (s := s.advance) x y h0 hb))]
        rfl
    | _ => exact exec_unchanged hexec (p := .fb) (by simp [mayWrite])

/-- Settles O60: the wait is a fixed point of Step; with a key latched the same LdVxKey is pending and completes. -/
theorem keyWaitRepeatsUntilAKey : Obligations.KeyWaitRepeatsUntilAKey := by
  constructor
  · intro s x hi hk
    refine ⟨step_keyWait hi hk, by simp [awaitingKey, hi, hk], fun k => ?_⟩
    have hi' : (s.setKey (some k)).pending = some (.ldVxKey x) := State.pending_setKey_eq_some.mpr hi
    have hexec := exec_ldVxKey_of_key (s := (s.setKey (some k)).advance) x (k := k) rfl
    refine ⟨_, (step_of_pending hi').trans hexec, ?_, rfl, by simp [awaitingKey, hi']⟩
    rw [State.reg_setReg_self, toNat_zextKey]
  · intro s h
    unfold awaitingKey at h
    split at h
    · next x hx => exact ⟨Option.isNone_iff_eq_none.mp h, x, hx⟩
    · cases h

end Sys2Proof

end

/-! PROOFS. The invariants of the machine (rules R13, R19, R168, R169), Reset (rules R42 to R44, R190 to R192) and Tick
(rule R178). -/

section

namespace Sys2Proof

namespace Machine

variable {s t : State} {i : Instr}

/-! ### Memory (rule R19) -/

/-- A store in range keeps the canonical form, so every instruction does. -/
theorem Effect.wf_mem (h : Effect i s t) (hm : s.mem.wf) : t.mem.wf := by
  obtain heq | ⟨bs, -, hr, heq⟩ := h.mem_eq_or_store
  · rwa [heq]
  · rw [heq]; exact Memory.wf_writeBytes hm hr

theorem StepEffect.wf_mem (h : StepEffect s t) (hm : s.mem.wf) : t.mem.wf := by
  cases h with
  | idle | fetchFault | decodeFault => exact hm
  | execute hi hexec => exact (effect_of_exec hexec).wf_mem hm

/-! ### pc and the saved return addresses (rule R13) -/

theorem pcBounded_raise (f : FaultKind) (h : PcBounded s) : PcBounded (s.raise f) := h

theorem pcBounded_advance (hpc : s.pc.toNat ≤ 0x0FFE) (h : PcBounded s) : PcBounded s.advance :=
  ⟨by rw [State.advance_pc, State.toNat_advance_pc hpc]; omega, h.2⟩

/-- pc after an instruction that completes is at most 0x10FE: nnn + V0 is the largest entry of rule R79's table. -/
theorem toNat_pc_le_of_pcAfter (hpc : s.pc.toNat ≤ 0x0FFE) (hstack : ∀ k : Fin 16, (s.stack[k.val]).toNat ≤ 0x1000)
    (h : PcAfter s t i) : t.pc.toNat ≤ 0x10FE := by
  have add_le : ∀ {w : Word}, w.toNat ≤ 4 → (s.pc + w).toNat ≤ 0x10FE := by
    intro w hw
    rw [BitVec.toNat_add, Nat.mod_eq_of_lt (by omega)]; omega
  have ite_le : ∀ {p : Prop} [Decidable p] {a b : Word}, a.toNat ≤ 4 → b.toNat ≤ 4 →
      (s.pc + if p then a else b).toNat ≤ 0x10FE := by
    intro p _ a b ha hb
    split
    · exact add_le ha
    · exact add_le hb
  cases i with
  | jmp nnn | call nnn => rw [show t.pc.toNat = nnn.toNat from h]; omega
  | jmpV0 nnn =>
    rw [show t.pc.toNat = nnn.toNat + (s.reg 0x0#4).toNat from h]
    have := nnn.isLt
    have := (s.reg 0x0#4).isLt
    omega
  | ret =>
    obtain ⟨hsp, hpop⟩ := h
    rw [hpop]
    exact (hstack ⟨s.sp.val - 1, by omega⟩).trans (by decide)
  | seVx | sneVx | seVxVy | sneVxVy | skp | sknp | ldVxKey =>
    rw [PcAfter] at h
    rw [h]
    exact ite_le (by decide) (by decide)
  | _ => rw [show t.pc = s.pc + 2#16 from h]; exact add_le (by decide)

/-- Only a Call writes the stack, and it writes the pc it finds. -/
theorem exec_stack (h : exec i s = .next t) (k : Fin 16) : t.stack[k.val] = s.stack[k.val] ∨ t.stack[k.val] = s.pc := by
  have answers : ∀ {u}, exec i s = .next u → t = u := fun hu => Host.Outcome.next.inj (h.symm.trans hu)
  cases i with
  | call nnn =>
    by_cases hsp : s.sp = 16
    · rw [answers (exec_call_of_full nnn hsp)]; exact .inl rfl
    · rw [answers (exec_call_of_room nnn (by omega))]
      by_cases hk : s.sp.val = k.val <;> simp [State.pushed, hk]
  | _ =>
    have hst : t.stack = s.stack := exec_unchanged h (p := .stack) (by simp [mayWrite])
    exact .inl (by rw [hst])

theorem StepEffect.pcBounded (h : StepEffect s t) (hb : PcBounded s) : PcBounded t := by
  cases h with
  | idle => exact hb
  | fetchFault hpc => exact pcBounded_raise _ hb
  | decodeFault hpc hdec => exact pcBounded_raise _ (pcBounded_advance hpc hb)
  | execute hi hexec =>
    obtain ⟨hrun, hpc, -⟩ := State.pending_eq_some.mp hi
    obtain hst | ⟨f, rfl, -⟩ := (effect_of_exec hexec).status_eq_or_raise
    · refine ⟨toNat_pc_le_of_pcAfter hpc hb.2 (exec_pcAfter (hst.trans hrun) hexec), fun k => ?_⟩
      obtain hk | hk := exec_stack hexec k
      · rw [hk]; exact hb.2 k
      · rw [hk, State.advance_pc, State.toNat_advance_pc hpc]; omega
    · exact pcBounded_raise _ (pcBounded_advance hpc hb)

/-! ### The latched payload (rules R168, R169) -/

theorem StepEffect.payloadHonest (h : StepEffect s t) (hp : PayloadHonest s.status) : PayloadHonest t.status := by
  cases h with
  | idle => exact hp
  | fetchFault hpc => exact payloadHonest_pastEnd s.pc
  | decodeFault hpc hdec => exact hdec
  | execute hi hexec =>
    obtain hst | ⟨f, rfl, hf⟩ := (effect_of_exec hexec).status_eq_or_raise
    · rw [hst]; exact hp
    · exact hf

/-! ### Every run -/

theorem inv_reset : Inv State.reset where
  memory := ⟨List.Pairwise.nil, fun _ hc => absurd hc List.not_mem_nil⟩
  pc := by decide
  payload := trivial

theorem boot_of_fits {rom : List Byte} (h : rom.length ≤ 3584) :
    State.boot rom = State.reset.setMem (Memory.writeBytes [] Config.progBase rom) := by
  have hload : State.reset.mem.loadRom rom = .ok (Memory.writeBytes [] Config.progBase rom) :=
    if_neg (Nat.not_lt.mpr h)
  rw [State.boot, hload]

theorem boot_of_tooLarge {rom : List Byte} (h : 3584 < rom.length) :
    State.boot rom = State.reset.raise .romTooLarge := by
  have hload : State.reset.mem.loadRom rom = .error .romTooLarge := if_pos h
  rw [State.boot, hload]

/-- A Reset makes a state with the invariants, whether the ROM fits or is refused. -/
theorem inv_boot (rom : List Byte) : Inv (State.boot rom) := by
  by_cases h : rom.length ≤ 3584
  · rw [boot_of_fits h]
    exact ⟨Memory.wf_writeBytes inv_reset.memory (by simp [Config.progBase]; omega), inv_reset.pc, trivial⟩
  · rw [boot_of_tooLarge (by omega)]
    exact ⟨inv_reset.memory, inv_reset.pc, trivial⟩

theorem tick_of_running (h : s.status = .running) :
    tick s = (s.setDt (countDown s.dt)).setSt (countDown s.st) := by
  unfold tick
  split
  · next f hf => rw [h] at hf; cases hf
  · rfl

theorem inv_tick (h : Inv s) : Inv (tick s) := by
  by_cases hs : s.status = .running
  · rw [tick_of_running hs]; exact ⟨h.memory, h.pc, h.payload⟩
  · rwa [tick_of_faulted hs]

theorem StepEffect.inv (h : StepEffect s t) (hs : Inv s) : Inv t :=
  ⟨h.wf_mem hs.memory, h.pcBounded hs.pc, h.payloadHonest hs.payload⟩

theorem applyEvent_inv {e : Event} (hs : Inv s) (h : applyEvent e s = .next t) : Inv t := by
  cases e with
  | step => exact (stepEffect_of_step h).inv hs
  | tick => rw [← Host.Outcome.next.inj h]; exact inv_tick hs
  | key k => rw [← Host.Outcome.next.inj h]; exact ⟨hs.memory, hs.pc, hs.payload⟩
  | reset rom =>
    obtain ⟨hmem, hpc, hpay⟩ := inv_boot rom
    rw [← Host.Outcome.next.inj h]
    exact ⟨hmem, hpc, hpay⟩

/-! ### The font and the reset image (rules R36, R42, R191) -/

@[simp] theorem length_fontBytes : fontBytes.length = 80 := Vector.length_toList

theorem getD_fontBytes {j : Nat} (h : j < 80) : fontBytes.getD j 0 = Config.fontTable[j] := by
  simp [fontBytes, h]

theorem fontByte_eq {j : Nat} (h : j < 80) : fontByte j = Config.fontTable[j] := dif_pos h

/-- After load_font the font's 80 addresses read the table, every other one as before. -/
theorem Memory.read_loadFont (m : Memory) (a : Nat) :
    m.loadFont.read a = if fontBase ≤ a ∧ a < fontBase + 80 then fontBytes.getD (a - fontBase) 0 else m.read a := by
  rw [Memory.loadFont, Memory.read_writeBytes, length_fontBytes]

theorem Memory.read_loadFont_font (m : Memory) {j : Nat} (h : j < 80) :
    m.loadFont.read (fontBase + j) = Config.fontTable[j] := by
  rw [Memory.read_loadFont, if_pos (by omega), Nat.add_sub_cancel_left, getD_fontBytes h]

theorem Memory.wf_loadFont {m : Memory} (h : m.wf) : m.loadFont.wf := by
  have := fontBase_le
  exact Memory.wf_writeBytes h (by rw [length_fontBytes]; omega)

theorem Memory.wf_nil : Memory.wf [] := inv_reset.memory

theorem Memory.wf_filled : Memory.filled.wf := by
  have := fontBase_le
  exact Memory.wf_writeBytes Memory.wf_nil (by rw [List.length_replicate, Config.fontSize]; omega)

/-- Filling and then loading the font makes the memory in which nothing is listed (log 4). -/
theorem Memory.loadFont_filled : Memory.filled.loadFont = [] := by
  refine Memory.ext_of_wf (Memory.wf_loadFont Memory.wf_filled) Memory.wf_nil fun a => ?_
  by_cases h : fontBase ≤ a ∧ a < fontBase + 80
  · obtain ⟨j, rfl⟩ := Nat.exists_eq_add_of_le h.1
    have hj : j < 80 := by omega
    rw [Memory.read_loadFont_font _ hj, Memory.read_nil, Memory.blank_font hj, fontByte_eq hj]
  · rw [Memory.read_loadFont, if_neg h, Memory.filled, Memory.read_writeBytes, if_neg]
    rwa [List.length_replicate, Config.fontSize]

theorem boot_mem_of_fits {rom : List Byte} (h : rom.length ≤ 3584) :
    (State.boot rom).mem = Memory.filled.loadFont.writeBytes Config.progBase rom := by
  rw [boot_of_fits h, Memory.loadFont_filled, State.setMem_mem]

/-- The reset image of an address of the font. -/
theorem read_nil_font {j : Nat} (h : j < 80) : Memory.read [] (fontBase + j) = Config.fontTable[j] := by
  rw [Memory.read_nil, Memory.blank_font h, fontByte_eq h]

/-- The reset image of every other address is MEM_FILL (decision D5). -/
theorem read_nil_of_not_font {a : Nat} (h : ¬ (fontBase ≤ a ∧ a < fontBase + 80)) : Memory.read [] a = 0x00 := by
  rw [Memory.read_nil, Memory.blank_of_not_font h, Config.memFill]

/-- A program byte after a Reset with a ROM. -/
theorem read_rom_byte (m : Memory) {rom : List Byte} {j : Nat} (h : j < rom.length) :
    (m.writeBytes Config.progBase rom).read (0x200 + j) = rom[j] := by
  rw [Memory.read_writeBytes, if_pos (by simp only [Config.progBase]; omega)]
  simp [Config.progBase, h]

/-- A byte outside the program after a Reset with a ROM. -/
theorem read_outside_rom (m : Memory) {rom : List Byte} {a : Nat} (h : ¬ (0x200 ≤ a ∧ a < 0x200 + rom.length)) :
    (m.writeBytes Config.progBase rom).read a = m.read a := by
  rw [Memory.read_writeBytes, Config.progBase, if_neg h]

theorem toNat_countDown (b : Byte) : (countDown b).toNat = b.toNat - 1 := by
  unfold countDown
  split
  · next h => rw [BitVec.toNat_sub_of_le (by rw [BitVec.le_def]; exact h)]; rfl
  · omega

end Machine

/-! ### The statements -/

open Machine

/-- Settles O22: the only stores are in range. -/
theorem stepKeepsMemoryCanonical : Obligations.StepKeepsMemoryCanonical :=
  fun _ _ hm h => (stepEffect_of_step h).wf_mem hm

/-- Settles O23: the program counter law bounds pc, and the one address a Call saves is A + 2 with A at most 0x0FFE. -/
theorem stepKeepsPcBounded : Obligations.StepKeepsPcBounded :=
  fun _ _ hb h => (stepEffect_of_step h).pcBounded hb

/-- Settles O24: every fault a Step raises carries a payload of its kind, and nothing else writes the latch. -/
theorem stepKeepsPayloadHonest : Obligations.StepKeepsPayloadHonest :=
  fun _ _ hp h => (stepEffect_of_step h).payloadHonest hp

/-- Settles O25: a Reset makes the invariants and every event keeps them. -/
theorem everyRunKeepsTheInvariants : Obligations.EveryRunKeepsTheInvariants :=
  ⟨inv_boot, fun _ _ _ hs h => runEvents_keeps (fun _ _ _ _ => applyEvent_inv) hs h⟩

/-- Settles O26: nothing is listed, pc is 0x0200 over an empty stack, and the core is RUNNING. -/
theorem resetMeetsTheInvariants : Obligations.ResetMeetsTheInvariants := inv_reset

/-- Settles O27: the fields are `State.reset`'s own, and the bytes are the reset image of the two kinds of address. -/
theorem resetValues : Obligations.ResetValues := by
  refine ⟨fun x => ?_, rfl, rfl, rfl, fun k => ?_, rfl, rfl, Framebuffer.pixel_clear, rfl, rfl,
    fun j => read_nil_font j.isLt, fun a _ h => read_nil_of_not_font h⟩
  · simp [State.reg, State.reset]
  · simp [State.reset]

/-- Settles O28: the ROM lies above the font and over a memory that reads as the reset image. -/
theorem romIsPlacedAtProgramBase : Obligations.RomIsPlacedAtProgramBase := by
  intro rom h
  have hfont := fontBase_le
  refine ⟨Memory.writeBytes [] Config.progBase rom, boot_of_fits h, by rw [Memory.loadFont_filled], fun j => ?_,
    fun j hj => read_rom_byte [] hj, fun a _ hf hr => ?_⟩
  · rw [read_outside_rom [] (by change ¬ (_ ≤ fontBase + _ ∧ _); omega)]
    exact read_nil_font j.isLt
  · rw [read_outside_rom [] hr]
    exact read_nil_of_not_font hf

/-- Settles O29: the length is checked before any copy, and a FAULTED core does not step. -/
theorem romTooLargeLeavesMemoryUnmodified : Obligations.RomTooLargeLeavesMemoryUnmodified := by
  intro rom h
  have hboot := boot_of_tooLarge h
  exact ⟨hboot, step_of_faulted (by rw [hboot]; simp)⟩

/-- Settles O30: `read_loadFont` gives the bytes; twice reads as once, and canonical memories that read alike are
equal. -/
theorem loadFontPlacesTheTableIdempotently : Obligations.LoadFontPlacesTheTableIdempotently := by
  refine ⟨fun rom h => ⟨_, boot_mem_of_fits h⟩, fun m => ?_⟩
  have hfont : Config.fontBase.val ≤ 0x1B0 := fontBase_le
  have twice : ∀ a, m.loadFont.loadFont.read a = m.loadFont.read a := by
    intro a
    rw [Memory.read_loadFont, Memory.read_loadFont]
    split <;> rfl
  refine ⟨fun d j hd hj => ⟨by omega, ?_, by omega⟩, fun a ha => ?_, twice, fun hm => ?_⟩
  · rw [Nat.add_assoc]
    exact m.read_loadFont_font (by omega)
  · rw [Memory.read_loadFont, if_neg (by change ¬ (Config.fontBase.val ≤ a ∧ a < Config.fontBase.val + 80); omega)]
  · have hwf := Memory.wf_loadFont hm
    exact ⟨hwf, Memory.ext_of_wf (Memory.wf_loadFont hwf) hwf twice⟩

/-- Settles O31: program memory reads as MEM_FILL, and 0x0000 is unrecognized. -/
theorem emptyRomFaultsAtOnce : Obligations.EmptyRomFaultsAtOnce := by
  have hboot : State.boot [] = State.reset := rfl
  rw [Obligations.EmptyRomFaultsAtOnce, hboot]
  have hword : State.reset.mem.word State.reset.pc.toNat = 0x0000 := by decide
  exact ⟨_, step_of_unrecognized rfl (by decide) hword (by decide), rfl, rfl, State.reset.advance_raise_keepsAllBut _⟩

/-- Settles O32: a Tick is a write of DT and one of ST. -/
theorem tickCountsBothTimersDown : Obligations.TickCountsBothTimersDown := by
  intro s hs
  refine ⟨_, congrArg Host.Outcome.next (tick_of_running hs), toNat_countDown s.dt, toNat_countDown s.st, ?_⟩
  exact (s.setDt_keepsAllBut_dt _).trans ((s.setDt _).setSt_keepsAllBut_st _)

end Sys2Proof

end

/-! PROOFS. Encoding (spec file 30_encoding.md): decode and encode are inverse to each other, the unrecognized words, and
the opcode map. -/

section

namespace Sys2Proof

/-! ### Decode after encode (rules R59, R60) -/

/-- Every instruction is what its word decodes to: the first nibble selects the family, the low nibble or the low byte
the instruction in families 0x5, 0x8, 0x9, 0xE and 0xF. -/
theorem decode_encode (i : Instr) : decode (encode i) = .instr i := by
  cases i with
  | cls | ret => rfl
  | jmp nnn => exact decode_encodeA_jmp nnn
  | ldI nnn => exact decode_encodeA_ldI nnn
  | call nnn | jmpV0 nnn => simp [encode, decode]
  | seVx x kk => exact decode_encodeXK_seVx x kk
  | sneVx x kk => exact decode_encodeXK_sneVx x kk
  | ldVx x kk => exact decode_encodeXK_ldVx x kk
  | addVx x kk | rnd x kk => simp [encode, decode]
  | seVxVy x y => exact decode_encodeXYN_family5 x y 0x0#4
  | sneVxVy x y => exact decode_encodeXYN_family9 x y 0x0#4
  | drw x y n => simp [encode, decode]
  | ldVxVy x y | or x y | and x y | xor x y | add x y | sub x y | shr x y | subn x y | shl x y =>
    simp [encode, decode, decodeFamily8]
  | skp x | sknp x => simp [encode, decode, decodeFamilyE]
  | ldVxDt x | ldVxKey x | ldDtVx x | ldStVx x | addIVx x | ldFVx x | ldBVx x | stRegs x | ldRegs x =>
    simp [encode, decode, decodeFamilyF]

/-- The same on bytes, whatever bytes follow (rule R55). -/
theorem decodeBytes_encodeBytes (i : Instr) (rest : List Byte) :
    decodeBytes (encodeBytes i ++ rest) = .instr i rest := by
  change decodeBytes (hiByte (encode i) :: loByte (encode i) :: rest) = _
  rw [decodeBytes_cons_cons, wordOfBytes_bytes, decode_encode]

/-! ### Encode after decode (rule R66) -/

section
variable {w : Word} {i : Instr} {op : Nibble}

/-- A word whose fixed fields are those of a format is the format's word of its operand fields. -/
theorem encodeA_of_fields (hop : opOf w = op) : encodeA op (nnnOf w) = w := by
  rw [← hop, encodeA_fields]

theorem encodeXK_of_op (hop : opOf w = op) : encodeXK op (xOf w) (kkOf w) = w := by
  rw [← hop, encodeXK_fields]

theorem encodeXK_of_fields {kk : Byte} (hop : opOf w = op) (hkk : kkOf w = kk) : encodeXK op (xOf w) kk = w := by
  rw [← hkk, encodeXK_of_op hop]

theorem encodeXYN_of_op (hop : opOf w = op) : encodeXYN op (xOf w) (yOf w) (nOf w) = w := by
  rw [← hop, encodeXYN_fields]

theorem encodeXYN_of_fields {n : Nibble} (hop : opOf w = op) (hn : nOf w = n) :
    encodeXYN op (xOf w) (yOf w) n = w := by
  rw [← hn, encodeXYN_of_op hop]

/-- The decoder's last arm: 0xF is the one nibble left after 0x0 to 0xE. -/
theorem nibble_eq_F : ∀ n : Nibble,
    n ∉ [0x0#4, 0x1#4, 0x2#4, 0x3#4, 0x4#4, 0x5#4, 0x6#4, 0x7#4, 0x8#4, 0x9#4, 0xA#4, 0xB#4, 0xC#4, 0xD#4, 0xE#4] →
      n = 0xF#4 := by decide

theorem encode_of_decodeFamily0 (h : decodeFamily0 w = .instr i) : encode i = w := by
  unfold decodeFamily0 at h
  split_ifs at h with h1 h2
  · cases h; exact h1.symm
  · cases h; exact h2.symm

theorem encode_of_decodeLowZero {j : Instr} (hj : nOf w = 0x0#4 → encode j = w) (h : decodeLowZero w j = .instr i) :
    encode i = w := by
  unfold decodeLowZero at h
  split_ifs at h with hn
  cases h
  exact hj hn

theorem encode_of_decodeFamily8 (hop : opOf w = 0x8#4) (h : decodeFamily8 w = .instr i) : encode i = w := by
  unfold decodeFamily8 at h
  split at h
  case h_10 => cases h
  all_goals
    next hn =>
      cases h
      exact encodeXYN_of_fields hop hn

theorem encode_of_decodeFamilyE (hop : opOf w = 0xE#4) (h : decodeFamilyE w = .instr i) : encode i = w := by
  unfold decodeFamilyE at h
  split at h
  case h_3 => cases h
  all_goals
    next hkk =>
      cases h
      exact encodeXK_of_fields hop hkk

theorem encode_of_decodeFamilyF (hop : opOf w = 0xF#4) (h : decodeFamilyF w = .instr i) : encode i = w := by
  unfold decodeFamilyF at h
  split at h
  case h_10 => cases h
  all_goals
    next hkk =>
      cases h
      exact encodeXK_of_fields hop hkk

/-- A word that decodes to an instruction is that instruction's word, format by format. -/
theorem encode_of_decode (h : decode w = .instr i) : encode i = w := by
  unfold decode at h
  split at h <;> rename_i hop
  case h_1 => exact encode_of_decodeFamily0 h
  case h_6 | h_10 => exact encode_of_decodeLowZero (encodeXYN_of_fields hop) h
  case h_9 => exact encode_of_decodeFamily8 hop h
  case h_15 => exact encode_of_decodeFamilyE hop h
  case h_16 =>
    have hF : opOf w = 0xF#4 := nibble_eq_F _ (by simp_all)
    exact encode_of_decodeFamilyF hF h
  case h_2 | h_3 | h_11 | h_12 => cases h; exact encodeA_of_fields hop
  case h_4 | h_5 | h_7 | h_8 | h_13 => cases h; exact encodeXK_of_op hop
  case h_14 => cases h; exact encodeXYN_of_op hop

/-! ### The unrecognized words (rule R61) -/

theorem decodeFamily0_unrecognized :
    decodeFamily0 w = .unrecognized w ↔ w ≠ 0x00E0#16 ∧ w ≠ 0x00EE#16 := by
  unfold decodeFamily0
  split_ifs with h1 h2 <;> simp [*]

theorem decodeLowZero_unrecognized : decodeLowZero w i = .unrecognized w ↔ nOf w ≠ 0x0#4 := by
  unfold decodeLowZero
  split_ifs with h <;> simp [h]

/-- Family 0x8 rejects the seven low nibbles that are none of its nine operations' (rule R60 note (a)). -/
theorem decodeFamily8_unrecognized :
    decodeFamily8 w = .unrecognized w ↔ nOf w ∈ [0x8#4, 0x9#4, 0xA#4, 0xB#4, 0xC#4, 0xD#4, 0xF#4] := by
  have complement : ∀ n : Nibble, n ∈ [0x8#4, 0x9#4, 0xA#4, 0xB#4, 0xC#4, 0xD#4, 0xF#4] ↔
      n ∉ [0x0#4, 0x1#4, 0x2#4, 0x3#4, 0x4#4, 0x5#4, 0x6#4, 0x7#4, 0xE#4] := by decide
  rw [complement]
  unfold decodeFamily8
  split <;> simp_all

theorem decodeFamilyE_unrecognized :
    decodeFamilyE w = .unrecognized w ↔ kkOf w ∉ [0x9E#8, 0xA1#8] := by
  unfold decodeFamilyE
  split <;> simp_all

theorem decodeFamilyF_unrecognized :
    decodeFamilyF w = .unrecognized w ↔
      kkOf w ∉ [0x07#8, 0x0A#8, 0x15#8, 0x18#8, 0x1E#8, 0x29#8, 0x33#8, 0x55#8, 0x65#8] := by
  unfold decodeFamilyF
  split <;> simp_all

theorem toNat_opOf (w : Word) : (opOf w).toNat = w.toNat / 0x1000 := by
  have := w.isLt
  simp only [opOf, BitVec.extractLsb'_toNat, Nat.shiftRight_eq_div_pow]
  omega

theorem toNat_nOf (w : Word) : (nOf w).toNat = w.toNat % 0x10 := by
  simp [nOf, BitVec.extractLsb'_toNat]

theorem toNat_kkOf (w : Word) : (kkOf w).toNat = w.toNat % 0x100 := by
  simp [kkOf, BitVec.extractLsb'_toNat]

/-- The unrecognized words by their fields. -/
theorem decode_unrecognized_iff :
    decode w = .unrecognized w ↔
      (opOf w = 0x0#4 ∧ decodeFamily0 w = .unrecognized w) ∨ ((opOf w = 0x5#4 ∨ opOf w = 0x9#4) ∧ nOf w ≠ 0x0#4) ∨
      (opOf w = 0x8#4 ∧ decodeFamily8 w = .unrecognized w) ∨ (opOf w = 0xE#4 ∧ decodeFamilyE w = .unrecognized w) ∨
      (opOf w = 0xF#4 ∧ decodeFamilyF w = .unrecognized w) := by
  unfold decode
  split <;> rename_i hop
  case h_16 =>
    have hF : opOf w = 0xF#4 := nibble_eq_F _ (by simp_all)
    simp [hF]
  all_goals simp [hop, decodeLowZero_unrecognized]

end

/-! ### The opcode map (rule R60) -/

/-- Every instruction's word has the fixed bits of its row. -/
theorem encodesItsRow (i : Instr) : Laws.EncodesItsRow.Statement i := by
  cases i with
  | cls => exact Laws.EncodesItsRow.cls
  | ret => exact Laws.EncodesItsRow.ret
  | jmp nnn => exact Laws.EncodesItsRow.jmp nnn
  | call nnn => exact Laws.EncodesItsRow.call nnn
  | seVx x kk => exact Laws.EncodesItsRow.seVx x kk
  | sneVx x kk => exact Laws.EncodesItsRow.sneVx x kk
  | seVxVy x y => exact Laws.EncodesItsRow.seVxVy x y
  | ldVx x kk => exact Laws.EncodesItsRow.ldVx x kk
  | addVx x kk => exact Laws.EncodesItsRow.addVx x kk
  | ldVxVy x y => exact Laws.EncodesItsRow.ldVxVy x y
  | or x y => exact Laws.EncodesItsRow.or x y
  | and x y => exact Laws.EncodesItsRow.and x y
  | xor x y => exact Laws.EncodesItsRow.xor x y
  | add x y => exact Laws.EncodesItsRow.add x y
  | sub x y => exact Laws.EncodesItsRow.sub x y
  | shr x y => exact Laws.EncodesItsRow.shr x y
  | subn x y => exact Laws.EncodesItsRow.subn x y
  | shl x y => exact Laws.EncodesItsRow.shl x y
  | sneVxVy x y => exact Laws.EncodesItsRow.sneVxVy x y
  | ldI nnn => exact Laws.EncodesItsRow.ldI nnn
  | jmpV0 nnn => exact Laws.EncodesItsRow.jmpV0 nnn
  | rnd x kk => exact Laws.EncodesItsRow.rnd x kk
  | drw x y n => exact Laws.EncodesItsRow.drw x y n
  | skp x => exact Laws.EncodesItsRow.skp x
  | sknp x => exact Laws.EncodesItsRow.sknp x
  | ldVxDt x => exact Laws.EncodesItsRow.ldVxDt x
  | ldVxKey x => exact Laws.EncodesItsRow.ldVxKey x
  | ldDtVx x => exact Laws.EncodesItsRow.ldDtVx x
  | ldStVx x => exact Laws.EncodesItsRow.ldStVx x
  | addIVx x => exact Laws.EncodesItsRow.addIVx x
  | ldFVx x => exact Laws.EncodesItsRow.ldFVx x
  | ldBVx x => exact Laws.EncodesItsRow.ldBVx x
  | stRegs x => exact Laws.EncodesItsRow.stRegs x
  | ldRegs x => exact Laws.EncodesItsRow.ldRegs x

/-- An instruction's row is the row of one of the exemplars: it does not depend on the operands. -/
theorem row_mem_opcodeTable (i : Instr) : i.row ∈ opcodeTable := by
  cases i <;> simp [opcodeTable, rowExemplars, Instr.row]

section
variable {w : Word}

/-- Words that agree under a mask agree on every field the mask covers. -/
theorem opOf_eq_of_masked {u m : Word} (h : w &&& m = u &&& m) (hm : opOf m = BitVec.allOnes 4) : opOf w = opOf u := by
  have hop := congrArg opOf h
  simp only [opOf, BitVec.extractLsb'_and] at hop hm
  rwa [hm, BitVec.and_allOnes, BitVec.and_allOnes] at hop

theorem nOf_eq_of_masked {u m : Word} (h : w &&& m = u &&& m) (hm : nOf m = BitVec.allOnes 4) : nOf w = nOf u := by
  have hn := congrArg nOf h
  simp only [nOf, BitVec.extractLsb'_and] at hn hm
  rwa [hm, BitVec.and_allOnes, BitVec.and_allOnes] at hn

theorem kkOf_eq_of_masked {u m : Word} (h : w &&& m = u &&& m) (hm : kkOf m = BitVec.allOnes 8) :
    kkOf w = kkOf u := by
  have hkk := congrArg kkOf h
  simp only [kkOf, BitVec.extractLsb'_and] at hkk hm
  rwa [hm, BitVec.and_allOnes, BitVec.and_allOnes] at hkk

/-- A word that selects the row of an instruction has its fixed fields, which are the ones the decoder looks at. -/
theorem decode_of_selects {i : Instr} (h : i.row.selects w) : ∃ j, decode w = .instr j := by
  have hsame : w &&& i.row.mask = encode i &&& i.row.mask := h.trans (encodesItsRow i).symm
  cases i with
  | cls | ret =>
    have hw : w &&& BitVec.allOnes 16 = encode _ &&& BitVec.allOnes 16 := hsame
    rw [BitVec.and_allOnes, BitVec.and_allOnes] at hw
    exact ⟨_, hw ▸ decode_encode _⟩
  | jmp | call | seVx | sneVx | ldVx | addVx | ldI | jmpV0 | rnd | drw =>
    have hop := opOf_eq_of_masked (m := 0xF000#16) hsame rfl
    simp [decode, hop, encode]
  | seVxVy | sneVxVy | ldVxVy | or | and | xor | add | sub | shr | subn | shl =>
    have hop := opOf_eq_of_masked (m := 0xF00F#16) hsame rfl
    have hn := nOf_eq_of_masked (m := 0xF00F#16) hsame rfl
    simp [decode, decodeLowZero, decodeFamily8, hop, hn, encode]
  | skp | sknp | ldVxDt | ldVxKey | ldDtVx | ldStVx | addIVx | ldFVx | ldBVx | stRegs | ldRegs =>
    have hop := opOf_eq_of_masked (m := 0xF0FF#16) hsame rfl
    have hkk := kkOf_eq_of_masked (m := 0xF0FF#16) hsame rfl
    simp [decode, decodeFamilyE, decodeFamilyF, hop, hkk, encode]

/-- Two rows that one word selects agree on the bits both fix. -/
theorem bits_agree_of_selects {r r' : OpcodeRow} (h : r.selects w) (h' : r'.selects w) :
    r.bits &&& r'.mask = r'.bits &&& r.mask := by
  rw [← h, ← h', BitVec.and_assoc, BitVec.and_assoc, BitVec.and_comm r.mask]

/-- No two different rows of the map agree on the bits both fix. -/
theorem eq_of_bits_agree :
    ∀ r ∈ opcodeTable, ∀ r' ∈ opcodeTable, r.bits &&& r'.mask = r'.bits &&& r.mask → r = r' := by
  decide +kernel

end

/-! ### The statements -/

/-- Settles O1: on words, and on the two bytes that make the word again. -/
theorem decodeOfEncodeIsIdentity : Obligations.DecodeOfEncodeIsIdentity :=
  fun i rest => ⟨decode_encode i, decodeBytes_encodeBytes i rest⟩

/-- Settles O2: format by format, a word is its fields. -/
theorem encodeOfDecodeIsIdentity : Obligations.EncodeOfDecodeIsIdentity := fun _ _ => encode_of_decode

/-- Settles O3: the unrecognized words by their fields, and the fields as numbers. -/
theorem unrecognizedSpaceIsExact : Obligations.UnrecognizedSpaceIsExact := by
  intro w op kk n
  rw [decode_unrecognized_iff, decodeFamily0_unrecognized, decodeFamily8_unrecognized, decodeFamilyE_unrecognized,
    decodeFamilyF_unrecognized]
  simp only [List.mem_cons, List.not_mem_nil, or_false, not_or, ne_eq, BitVec.toNat_eq, toNat_opOf, toNat_nOf,
    toNat_kkOf, BitVec.reduceToNat]
  exact .rfl

/-- Settles O4: a decoded word is its instruction's, which lies in its row; a selected row fixes the fields the decoder
looks at; and no two rows agree on the bits both fix. -/
theorem decoderAgreesWithOpcodeTable : Obligations.DecoderAgreesWithOpcodeTable := by
  intro w
  have row_of_decode : ∀ i, decode w = .instr i → i.row ∈ opcodeTable ∧ i.row.selects w := by
    intro i hi
    obtain rfl := encode_of_decode hi
    exact ⟨row_mem_opcodeTable i, encodesItsRow i⟩
  refine ⟨⟨fun ⟨i, hi⟩ => ⟨i.row, row_of_decode i hi⟩, ?_⟩, row_of_decode, fun r hr r' hr' h h' =>
    eq_of_bits_agree r hr r' hr' (bits_agree_of_selects h h')⟩
  rintro ⟨r, hr, hsel⟩
  obtain ⟨i, -, rfl⟩ := List.mem_map.mp hr
  exact decode_of_selects hsel

/-- Settles O5: nine closed words. -/
theorem sampleWordsDecode : Obligations.SampleWordsDecode := by
  unfold Obligations.SampleWordsDecode
  decide

end Sys2Proof

end

/-! PROOFS. The instructions one by one (spec files 41 to 45): control transfer, ALU and shifts, the index register and
memory, Cls, timers and keys. Each is the answer of its arm, the frame of its update, and the result as a number. -/

section

namespace Sys2Proof

namespace Machine

variable {s : State} {i : Instr}

/-! ### The flag-writing instructions (rules R112 to R118) -/

/-- What the five instructions that write a result and then VF have in common: the flag is VF's value in every form, the
result is Vx's unless x = F, and nothing else changes (rule R114). -/
theorem exec_setRegThenFlag_frame {x : RegIdx} {r : Byte} {c : Bool}
    (h : exec i s = .next (s.setRegThenFlag x r c)) :
    ∃ t, exec i s = .next t ∧ t.reg 0xF#4 = flagByte c ∧ (x ≠ 0xF#4 → t.reg x = r) ∧
      KeepsRegsBut [x, 0xF#4] s t ∧ KeepsAllBut [.v] s t := by
  refine ⟨_, h, ?_, fun hx => ?_, s.setRegThenFlag_keepsRegsBut x r c, s.setRegThenFlag_keepsAllBut_v x r c⟩
  · exact (s.reg_setRegThenFlag x r c flagReg).trans (if_pos rfl)
  · exact (s.reg_setRegThenFlag x r c x).trans ((if_neg hx).trans (if_pos rfl))

theorem toNat_flagByte_carryOut (a b : Byte) : (flagByte (carryOut a b)).toNat = (a.toNat + b.toNat) / 256 := by
  have := a.isLt
  have := b.isLt
  rw [toNat_flagByte]
  split
  · next h => rw [carryOut_iff] at h; omega
  · next h => rw [carryOut_iff] at h; omega

theorem flagByte_notBorrow (a b : Byte) : flagByte (notBorrow a b) = if a.toNat < b.toNat then 0x00 else 0x01 := by
  by_cases h : a.toNat < b.toNat
  · rw [if_pos h, show notBorrow a b = false from decide_eq_false (by omega)]; rfl
  · rw [if_neg h, show notBorrow a b = true from decide_eq_true (by omega)]; rfl

/-- The difference is that of the integers modulo 256 (rule R120). -/
theorem toInt_subByte (a b : Byte) : ((subByte a b).toNat : Int) = (a.toNat - b.toNat : Int) % 256 := by
  have := a.isLt
  have := b.isLt
  rw [toNat_subByte]
  split <;> omega

theorem toNat_flagByte_shrOut (a : Byte) : (flagByte (shrOut a)).toNat = a.toNat % 2 := by
  rw [toNat_flagByte]
  split
  · next h => rw [shrOut_iff] at h; omega
  · next h => rw [shrOut_iff] at h; omega

theorem toNat_flagByte_shlOut (a : Byte) : (flagByte (shlOut a)).toNat = a.toNat / 128 := by
  have := a.isLt
  rw [toNat_flagByte]
  split
  · next h => rw [shlOut_iff] at h; omega
  · next h => rw [shlOut_iff] at h; omega

/-! ### Index register and memory (rules R127 to R131) -/

/-- What the instructions that only write I have in common. -/
theorem exec_setI_frame {w : Word} (h : exec i s = .next (s.setI w)) :
    ∃ t, exec i s = .next t ∧ t.i = w ∧ KeepsAllBut [.i] s t :=
  ⟨_, h, s.setI_i w, s.setI_keepsAllBut_i w⟩

theorem toNat_glyphAddr (b : Byte) :
    (glyphAddr (glyphDigit b)).toNat = Config.fontBase.val + 5 * (b.toNat % 16) := by
  have hfont : Config.fontBase.val ≤ 0x1B0 := fontBase_le
  simp only [glyphAddr, glyphDigit, fontBase, Config.glyphBytes, BitVec.toNat_ofNat]
  omega

/-- What LdBVx and StRegs have in common when every byte is in range: the bytes are read back from I up, and no other
byte and no other part changes. -/
theorem exec_store_frame {bs : List Byte} (h : exec i s = .next (s.setMem (s.mem.writeBytes s.base bs))) :
    ∃ t, exec i s = .next t ∧ (∀ k < bs.length, t.mem.read (s.i.toNat + k) = bs.getD k 0) ∧
      KeepsBytesBut s.i.toNat bs.length s t ∧ KeepsAllBut [.mem] s t := by
  refine ⟨_, h, fun k hk => ?_, fun a ha => ?_, s.setMem_keepsAllBut_mem _⟩
  · rw [State.setMem_mem, State.base, Memory.read_writeBytes, if_pos (by omega), Nat.add_sub_cancel_left]
  · rw [State.setMem_mem, State.base, Memory.read_writeBytes, if_neg ha]

theorem toNat_decimalDigits (b : Byte) :
    ((decimalDigits b).getD 0 0).toNat = b.toNat / 100 ∧ ((decimalDigits b).getD 1 0).toNat = b.toNat / 10 % 10 ∧
      ((decimalDigits b).getD 2 0).toNat = b.toNat % 10 := by
  have := b.isLt
  simp only [decimalDigits, List.getD_cons_zero, List.getD_cons_succ, BitVec.toNat_ofNat]
  omega

/-- After a StRegs in range the bytes from I are the registers (rule R130). -/
theorem exec_stRegs_frame {x : RegIdx} (h : s.i.toNat + x.toNat ≤ 0x0FFF) :
    ∃ t, exec (.stRegs x) s = .next t ∧
      (∀ k : RegIdx, k.toNat ≤ x.toNat → t.mem.read (s.i.toNat + k.toNat) = s.reg k) ∧
      KeepsBytesBut s.i.toNat (x.toNat + 1) s t ∧ KeepsAllBut [.mem] s t := by
  have hr : s.base + (x.toNat + 1) ≤ 0x1000 := by rw [State.base]; omega
  obtain ⟨t, ht, hread, hbytes, hparts⟩ := exec_store_frame (exec_stRegs_of_inRange hr)
  rw [length_regsUpTo] at hread hbytes
  exact ⟨t, ht, fun k hk => (hread _ (by omega)).trans (getD_regsUpTo s x k hk), hbytes, hparts⟩

/-- After a LdRegs in range V0 to Vx are the bytes from I (rule R131). -/
theorem reg_loadRegs_bytesFrom (x k : RegIdx) :
    (s.loadRegs 0 (s.mem.bytesFrom s.base (x.toNat + 1))).reg k =
      if k.toNat ≤ x.toNat then s.mem.read (s.i.toNat + k.toNat) else s.reg k := by
  have := x.isLt
  rw [State.reg_loadRegs _ _ _ (by rw [Memory.length_bytesFrom]; omega), Memory.length_bytesFrom]
  by_cases h : k.toNat ≤ x.toNat
  · rw [if_pos (by omega), if_pos h, Nat.sub_zero, Memory.getD_bytesFrom _ _ _ _ (by omega), State.base]
  · rw [if_neg (by omega), if_neg h]

/-! ### Keys (rule R156) -/

theorem keyPressed_of_match {b : Byte} (h : ∃ k, s.key = some k ∧ k.toNat = b.toNat) : s.keyPressed b = true := by
  obtain ⟨k, hk, he⟩ := h
  rw [keyPressed_iff, hk, Option.map_some, he]

theorem keyPressed_of_no_match {b : Byte} (h : ∀ k, s.key = some k → k.toNat ≠ b.toNat) : s.keyPressed b = false := by
  rw [Bool.eq_false_iff, ne_eq, keyPressed_iff]
  intro hmap
  obtain ⟨k, hk, he⟩ := Option.map_eq_some_iff.mp hmap
  exact h k hk he

end Machine

/-! ### The statements -/

open Machine

/-- Settles O34: two zero-extended operands, whose 16-bit sum does not wrap. -/
theorem jmpV0AddsV0 : Obligations.JmpV0AddsV0 := by
  intro nnn s
  exact ⟨decode_encode (.jmpV0 nnn), _, exec_jmpV0 s nnn, toNat_jmpV0_target nnn _, s.setPc_keepsAllBut_pc _⟩

/-- Settles O35: the push and the write of pc, or the fault. -/
theorem callPushesTheReturnAddress : Obligations.CallPushesTheReturnAddress := by
  intro nnn s
  refine ⟨fun h => ⟨_, exec_call_of_room nnn h, rfl, ?_, fun k hk => ?_, toNat_zextAddr nnn, ?_⟩, fun h => ?_⟩
  · simp [State.pushed]
  · exact Vector.getElem_set_ne h k.isLt (Ne.symm hk)
  · exact ((s.pushed_keepsAllBut h).trans ((s.pushed h).setPc_keepsAllBut_pc _)).mono (by simp)
  · exact ⟨_, exec_call_of_full nnn (Fin.ext h), rfl, s.raise_keepsAllBut_status _⟩

/-- Settles O36: the pop, or the fault. -/
theorem retPopsTheReturnAddress : Obligations.RetPopsTheReturnAddress := by
  intro s
  refine ⟨decode_encode .ret, fun h => ⟨_, exec_ret_of_live h, rfl, rfl, s.popped_keepsAllBut h⟩, fun h => ?_⟩
  exact ⟨_, exec_ret_of_empty (Fin.ext h), rfl, s.raise_keepsAllBut_status _⟩

/-- Settles O37: the entry that the Call stored is the one on top. -/
theorem retUndoesCall : Obligations.RetUndoesCall := by
  intro nnn s t u hroom hcall hsp hstack
  obtain rfl := Host.Outcome.next.inj ((exec_call_of_room nnn hroom).symm.trans hcall)
  have hval : u.sp.val = s.sp.val + 1 := congrArg Fin.val hsp
  have hlive : 0 < u.sp.val := by omega
  refine ⟨_, exec_ret_of_live hlive, ?_, Fin.ext ?_, u.popped_keepsAllBut hlive⟩
  · simp [State.popped, hstack, hval, State.pushed]
  · simp [State.popped, hval]

/-- Settles O41: one write of Vx, its value as a number. -/
theorem addImmediateWrapsWithoutFlag : Obligations.AddImmediateWrapsWithoutFlag := by
  intro x kk s
  obtain ⟨t, ht, hx, hframe⟩ := exec_setReg_frame (exec_addVx s x kk)
  exact ⟨t, ht, by rw [hx, toNat_addByte], hframe⟩

/-- Settles O42: one write of Vx each, its value bit by bit. -/
theorem moveAndLogicOperations : Obligations.MoveAndLogicOperations := by
  intro x y s
  refine ⟨exec_setReg_frame (exec_ldVxVy s x y), ?_, ?_, ?_⟩
  · obtain ⟨t, ht, hx, hframe⟩ := exec_setReg_frame (exec_or s x y)
    exact ⟨t, ht, fun b => by rw [hx, BitVec.getLsbD_or], hframe⟩
  · obtain ⟨t, ht, hx, hframe⟩ := exec_setReg_frame (exec_and s x y)
    exact ⟨t, ht, fun b => by rw [hx, BitVec.getLsbD_and], hframe⟩
  · obtain ⟨t, ht, hx, hframe⟩ := exec_setReg_frame (exec_xor s x y)
    exact ⟨t, ht, fun b => by rw [hx, BitVec.getLsbD_xor], hframe⟩

/-- Settles O43: the result and the flag as numbers. -/
theorem addSetsCarry : Obligations.AddSetsCarry := by
  intro x y s
  obtain ⟨t, ht, hf, hx, hframe⟩ := exec_setRegThenFlag_frame (exec_add s x y)
  exact ⟨decode_encode (.add x y), t, ht, by rw [hf, toNat_flagByte_carryOut], fun h => by rw [hx h, toNat_addByte],
    hframe⟩

/-- Settles O44: the same update for both, with the operands exchanged. -/
theorem subtractionsSetNotBorrow : Obligations.SubtractionsSetNotBorrow := by
  intro x y s
  constructor
  · obtain ⟨t, ht, hf, hx, hframe⟩ := exec_setRegThenFlag_frame (exec_sub s x y)
    exact ⟨t, ht, by rw [hf, flagByte_notBorrow], fun h => by rw [hx h, toInt_subByte], hframe⟩
  · obtain ⟨t, ht, hf, hx, hframe⟩ := exec_setRegThenFlag_frame (exec_subn s x y)
    exact ⟨t, ht, by rw [hf, flagByte_notBorrow], fun h => by rw [hx h, toInt_subByte], hframe⟩

/-- Settles O45: the bit out is the remainder of the halving, and the carry of the doubling. -/
theorem shiftsMoveOneBitIntoVf : Obligations.ShiftsMoveOneBitIntoVf := by
  intro x y s
  constructor
  · obtain ⟨t, ht, hf, hx, hframe⟩ := exec_setRegThenFlag_frame (exec_shr s x y)
    have hflag : (t.reg 0xF#4).toNat = (s.reg x).toNat % 2 := by rw [hf, toNat_flagByte_shrOut]
    exact ⟨t, ht, hflag, fun h => by rw [hx h, toNat_shrByte, hflag]; omega, hframe⟩
  · obtain ⟨t, ht, hf, hx, hframe⟩ := exec_setRegThenFlag_frame (exec_shl s x y)
    have hflag : (t.reg 0xF#4).toNat = (s.reg x).toNat / 128 := by rw [hf, toNat_flagByte_shlOut]
    exact ⟨t, ht, hflag, fun h => by rw [hx h, toNat_shlByte, hflag]; omega, hframe⟩

/-- Settles O46: one draw and one write of Vx. -/
theorem rndMasksAFreshByte : Obligations.RndMasksAFreshByte := by
  intro x kk s
  have hx := s.drawn.reg_setReg_self x (Config.rndByte s.rndDraws &&& kk)
  refine ⟨_, exec_rnd s x kk, hx, ?_, rfl, s.drawn.setReg_keepsRegsBut x _, s.drawn_setReg_keepsAllBut_v_draws x _⟩
  rw [hx, BitVec.and_assoc, BitVec.and_not_self]
  exact BitVec.and_zero

/-- Settles O48: one write of I each, its value as a number. -/
theorem indexArithmetic : Obligations.IndexArithmetic := by
  intro x s
  constructor
  · obtain ⟨t, ht, hi, hframe⟩ := exec_setI_frame (exec_addIVx s x)
    exact ⟨t, ht, by rw [hi, toNat_addIndex], hframe⟩
  · obtain ⟨t, ht, hi, hframe⟩ := exec_setI_frame (exec_ldFVx s x)
    have hfont : Config.fontBase.val ≤ 0x1B0 := fontBase_le
    rw [← BitVec.toNat_inj, toNat_glyphAddr] at hi
    exact ⟨t, ht, hi, by omega, hframe⟩

/-- Settles O49: a store of three digits, or the fault. -/
theorem bcdStoresThreeDigits : Obligations.BcdStoresThreeDigits := by
  intro x s
  refine ⟨decode_encode (.ldBVx x), fun h => ?_, fun h => ?_⟩
  · have hr : s.base + 3 ≤ 0x1000 := by rw [State.base]; omega
    obtain ⟨t, ht, hread, hbytes, hparts⟩ := exec_store_frame (exec_ldBVx_of_inRange x hr)
    obtain ⟨h0, h1, h2⟩ := toNat_decimalDigits (s.reg x)
    refine ⟨t, ht, ?_, ?_, ?_, hbytes, hparts⟩
    · rw [← h0, ← hread 0 (by simp), Nat.add_zero]
    · rw [← h1, ← hread 1 (by simp)]
    · rw [← h2, ← hread 2 (by simp)]
  · exact exec_pastEnd_frame (exec_ldBVx_of_beyond x (by rw [State.base]; omega))

/-- Settles O50: a store of the registers, or the fault. -/
theorem stRegsStoresTheRegisters : Obligations.StRegsStoresTheRegisters := by
  intro x s
  exact ⟨exec_stRegs_frame, fun h => exec_pastEnd_frame (exec_stRegs_of_beyond (by rw [State.base]; omega))⟩

/-- Settles O51: a load of the registers, or the fault. -/
theorem ldRegsLoadsTheRegisters : Obligations.LdRegsLoadsTheRegisters := by
  intro x s
  refine ⟨fun h => ?_, fun h => exec_pastEnd_frame (exec_ldRegs_of_beyond (by rw [State.base]; omega))⟩
  have hr : s.base + (x.toNat + 1) ≤ 0x1000 := by rw [State.base]; omega
  exact ⟨_, exec_ldRegs_of_inRange hr, reg_loadRegs_bytesFrom x, s.loadRegs_keepsAllBut_v _ _⟩

/-- Settles O52: the fetch's two bytes are the two registers stored there. -/
theorem fetchSeesStoresAtOnce : Obligations.FetchSeesStoresAtOnce := by
  intro x k s t h hk hexec
  obtain ⟨u, hu, hread, -, -⟩ := exec_stRegs_frame h
  obtain rfl := Host.Outcome.next.inj (hu.symm.trans hexec)
  have hnext : (k + 1).toNat = k.toNat + 1 := by
    have := x.isLt
    rw [BitVec.toNat_add]
    exact Nat.mod_eq_of_lt (by simp; omega)
  refine ⟨_, Memory.readWord_ok _ (by omega), ?_⟩
  rw [Memory.word, toNat_wordOfBytes, hread k (by omega), Nat.add_assoc, ← hnext, hread (k + 1) (by omega)]

/-- Settles O53: one write of the pixel buffer. -/
theorem clsClearsEveryPixel : Obligations.ClsClearsEveryPixel :=
  ⟨decode_encode .cls, fun s => ⟨_, exec_cls s, Framebuffer.pixel_clear, s.setFb_keepsAllBut_fb _⟩,
    fun s h => by rw [fbChanged, h]⟩

/-- Settles O55: the check comes before any pixel is drawn, for clipped rows too. -/
theorem drwFaultsBeforeDrawing : Obligations.DrwFaultsBeforeDrawing :=
  fun x y n s h0 h => exec_pastEnd_frame (exec_drw_of_beyond x y h0 (by rw [State.base]; omega))

/-- Settles O57: one write each, of Vx, DT and ST. -/
theorem timerMoves : Obligations.TimerMoves := by
  intro x s
  exact ⟨decode_encode (.ldVxDt x), decode_encode (.ldDtVx x), decode_encode (.ldStVx x),
    exec_setReg_frame (exec_ldVxDt s x), ⟨_, exec_ldDtVx s x, rfl, s.setDt_keepsAllBut_dt _⟩,
    ⟨_, exec_ldStVx s x, rfl, s.setSt_keepsAllBut_st _⟩⟩

/-- Settles O58: both instructions are a `skipIf` on the same comparison, Sknp on its negation. -/
theorem keySkips : Obligations.KeySkips := by
  intro x s
  obtain ⟨t, ht, hpc, hframe⟩ := exec_skip_frame (exec_skp s x)
  obtain ⟨u, hu, hpc', hframe'⟩ := exec_skip_frame (exec_sknp s x)
  refine ⟨decode_encode (.skp x), decode_encode (.sknp x), fun h => ?_, fun h => ?_⟩
  · rw [keyPressed_of_match h] at hpc hpc'
    exact ⟨t, u, ht, hpc, hu, hpc', hframe, hframe'⟩
  · rw [keyPressed_of_no_match h] at hpc hpc'
    exact ⟨t, u, ht, hpc, hu, hpc', hframe, hframe'⟩

/-- Settles O59: one write of Vx, or one of pc. -/
theorem ldVxKeyTakesTheKey : Obligations.LdVxKeyTakesTheKey := by
  intro x s
  constructor
  · intro k hk
    obtain ⟨t, ht, hx, hframe⟩ := exec_setReg_frame (exec_ldVxKey_of_key x hk)
    exact ⟨t, ht, by rw [hx, toNat_zextKey], hframe⟩
  · intro hk
    exact ⟨_, exec_ldVxKey_of_none x hk, BitVec.sub_add_cancel s.pc 2#16, s.setPc_keepsAllBut_pc _⟩

end Sys2Proof

end

/-! PROOFS. Drawing (rules R141, R142): the loop of Drw against its closed form, column by column and row by row, and two
equal draws. -/

section

namespace Sys2Proof

namespace Machine

/-! ### The closed form of the loop -/

/-- The bit that the sprite byte `b`, drawn at the column offsets `cs` from column `x0`, puts on column `c`. -/
def columnBit (x0 : Nat) (b : Byte) (cs : List Nat) (c : Nat) : Bool :=
  decide (x0 ≤ c ∧ c - x0 ∈ cs) && b.getLsbD (7 - (c - x0))

/-- The bit that the sprite bytes `bs`, drawn from row `y0` and column `x0`, put on the pixel (r, c). -/
def rowBit (y0 x0 : Nat) (bs : List Byte) (r c : Nat) : Bool :=
  decide (y0 ≤ r ∧ r < y0 + bs.length) && columnBit x0 (bs.getD (r - y0) 0) (List.range 8) c

section
variable {y0 x0 r c : Nat} {b : Byte} {bs : List Byte} {j : Nat} {js : List Nat}

theorem columnBit_nil : columnBit x0 b [] c = false := by simp [columnBit]

/-- The first offset's own column. -/
theorem columnBit_cons_self : columnBit x0 b (j :: js) (x0 + j) = b.getLsbD (7 - j) := by simp [columnBit]

/-- Any other column is left to the offsets after it. -/
theorem columnBit_cons_of_ne (h : c ≠ x0 + j) : columnBit x0 b (j :: js) c = columnBit x0 b js c := by
  have hiff : (x0 ≤ c ∧ c - x0 ∈ j :: js) ↔ (x0 ≤ c ∧ c - x0 ∈ js) :=
    and_congr_right fun hle => by rw [List.mem_cons, or_iff_right (by omega)]
  simp only [columnBit, hiff]

/-- An offset that is not among them puts no bit on its column. -/
theorem columnBit_of_notMem (h : j ∉ js) : columnBit x0 b js (x0 + j) = false := by simp [columnBit, h]

/-- All eight columns of a sprite byte (rule R141). -/
theorem columnBit_range : columnBit x0 b (List.range 8) c =
    (decide (x0 ≤ c ∧ c < x0 + 8) && b.getLsbD (7 - (c - x0))) := by
  have hiff : (x0 ≤ c ∧ c - x0 ∈ List.range 8) ↔ (x0 ≤ c ∧ c < x0 + 8) := by
    rw [List.mem_range]; omega
  simp only [columnBit, hiff]

theorem rowBit_nil : rowBit y0 x0 [] r c = false := by
  rw [rowBit, decide_eq_false (by simp), Bool.false_and]

/-- The first byte's own row. -/
theorem rowBit_cons_self : rowBit y0 x0 (b :: bs) y0 c = columnBit x0 b (List.range 8) c := by simp [rowBit]

/-- Any other row is left to the bytes after it. -/
theorem rowBit_cons_of_ne (h : r ≠ y0) : rowBit y0 x0 (b :: bs) r c = rowBit (y0 + 1) x0 bs r c := by
  have hiff : (y0 ≤ r ∧ r < y0 + (b :: bs).length) ↔ (y0 + 1 ≤ r ∧ r < y0 + 1 + bs.length) := by
    rw [List.length_cons]; omega
  by_cases hr : y0 + 1 ≤ r ∧ r < y0 + 1 + bs.length
  · have hidx : r - y0 = r - (y0 + 1) + 1 := by omega
    simp only [rowBit, hiff, hidx, List.getD_cons_succ]
  · simp only [rowBit, hiff, hr, decide_false, Bool.false_and]

/-- The rows after the first leave the first alone. -/
theorem rowBit_above : rowBit (y0 + 1) x0 bs y0 c = false := by
  rw [rowBit, decide_eq_false (by omega), Bool.false_and]

end

theorem Framebuffer.lt_of_pixel {fb : Framebuffer} {r c : Nat} (h : fb.pixel r c = true) : r < 32 ∧ c < 64 := by
  by_contra hout
  rw [fb.pixel_outside hout] at h
  cases h

/-! ### One sprite byte: induction over the columns -/

section
variable (py x0 : Nat) (b : Byte)

theorem Canvas.pixel_drawByte {cs : List Nat} (hnd : cs.Nodup) (cv : Canvas) {r c : Nat} (hr : r < 32) (hc : c < 64) :
    (cv.drawByte false py x0 b cs).fb.pixel r c =
      (cv.fb.pixel r c ^^ (decide (r = py) && columnBit x0 b cs c)) := by
  induction cs generalizing cv with
  | nil => rw [columnBit_nil, Bool.and_false, Bool.xor_false]; rfl
  | cons j js ih =>
    obtain ⟨hj, hjs⟩ := List.nodup_cons.mp hnd
    rw [Canvas.drawByte, ih hjs, Canvas.pixel_plot]
    by_cases hcol : c = x0 + j
    · subst hcol
      by_cases hrow : r = py
      · subst hrow
        simp [hr, hc, columnBit_of_notMem hj, columnBit_cons_self]
      · simp [hrow]
    · rw [if_neg (fun h => hcol h.2.1), columnBit_cons_of_ne hcol]

/-- A byte hits when one of its bits falls on a pixel that was set before: the offsets are different columns, so no bit
sees another's XOR. -/
theorem Canvas.hit_drawByte {cs : List Nat} (hnd : cs.Nodup) (cv : Canvas) :
    (cv.drawByte false py x0 b cs).hit = true ↔
      cv.hit = true ∨ ∃ c, cv.fb.pixel py c = true ∧ columnBit x0 b cs c = true := by
  induction cs generalizing cv with
  | nil => simp [Canvas.drawByte, columnBit_nil]
  | cons j js ih =>
    obtain ⟨hj, hjs⟩ := List.nodup_cons.mp hnd
    have later : ∀ c, columnBit x0 b js c = true → c ≠ x0 + j := by
      rintro c hbit rfl
      rw [columnBit_of_notMem hj] at hbit
      cases hbit
    rw [Canvas.drawByte, ih hjs, Canvas.hit_plot, Bool.or_eq_true, Bool.and_eq_true, or_assoc]
    refine or_congr_right ⟨?_, ?_⟩
    · rintro (⟨hbit, hpix⟩ | ⟨c, hpix, hbit⟩)
      · exact ⟨x0 + j, hpix, columnBit_cons_self.trans hbit⟩
      · have hne := later c hbit
        rw [Canvas.pixel_plot, if_neg (fun h => hne h.2.1)] at hpix
        exact ⟨c, hpix, (columnBit_cons_of_ne hne).trans hbit⟩
    · rintro ⟨c, hpix, hbit⟩
      by_cases hne : c = x0 + j
      · subst hne
        exact .inl ⟨columnBit_cons_self.symm.trans hbit, hpix⟩
      · refine .inr ⟨c, ?_, (columnBit_cons_of_ne hne).symm.trans hbit⟩
        rwa [Canvas.pixel_plot, if_neg (fun h => hne h.2.1)]

end

/-! ### The whole sprite: induction over the rows -/

theorem Canvas.pixel_drawSprite (x0 : Nat) (bs : List Byte) (cv : Canvas) (py : Nat) {r c : Nat} (hr : r < 32)
    (hc : c < 64) :
    (cv.drawSprite false py x0 bs).fb.pixel r c = (cv.fb.pixel r c ^^ rowBit py x0 bs r c) := by
  induction bs generalizing cv py with
  | nil => rw [rowBit_nil, Bool.xor_false]; rfl
  | cons b bs ih =>
    rw [Canvas.drawSprite, ih, Canvas.pixel_drawByte py x0 b List.nodup_range cv hr hc]
    by_cases hrow : r = py
    · subst hrow
      simp [rowBit_above, rowBit_cons_self]
    · simp [hrow, rowBit_cons_of_ne hrow]

/-- A sprite hits when one of its visible bits falls on a pixel that was set before: the bytes are different rows. -/
theorem Canvas.hit_drawSprite (x0 : Nat) (bs : List Byte) (cv : Canvas) (py : Nat) :
    (cv.drawSprite false py x0 bs).hit = true ↔
      cv.hit = true ∨ ∃ r c, cv.fb.pixel r c = true ∧ rowBit py x0 bs r c = true := by
  induction bs generalizing cv py with
  | nil => simp [Canvas.drawSprite, rowBit_nil]
  | cons b bs ih =>
    have pixel_other : ∀ {r c}, r ≠ py → r < 32 → c < 64 →
        (cv.drawByte false py x0 b (List.range 8)).fb.pixel r c = cv.fb.pixel r c := by
      intro r c hrow hr hc
      rw [Canvas.pixel_drawByte py x0 b List.nodup_range cv hr hc, decide_eq_false hrow, Bool.false_and, Bool.xor_false]
    have below : ∀ {r c}, rowBit (py + 1) x0 bs r c = true → r ≠ py := by
      rintro r c hbit rfl
      rw [rowBit_above] at hbit
      cases hbit
    rw [Canvas.drawSprite, ih, Canvas.hit_drawByte py x0 b List.nodup_range, or_assoc]
    refine or_congr_right ⟨?_, ?_⟩
    · rintro (⟨c, hpix, hbit⟩ | ⟨r, c, hpix, hbit⟩)
      · exact ⟨py, c, hpix, rowBit_cons_self.trans hbit⟩
      · obtain ⟨hr, hc⟩ := Framebuffer.lt_of_pixel hpix
        rw [pixel_other (below hbit) hr hc] at hpix
        exact ⟨r, c, hpix, (rowBit_cons_of_ne (below hbit)).trans hbit⟩
    · rintro ⟨r, c, hpix, hbit⟩
      by_cases hrow : r = py
      · subst hrow
        exact .inl ⟨c, hpix, rowBit_cons_self.symm.trans hbit⟩
      · obtain ⟨hr, hc⟩ := Framebuffer.lt_of_pixel hpix
        exact .inr ⟨r, c, (pixel_other hrow hr hc).trans hpix, (rowBit_cons_of_ne hrow).symm.trans hbit⟩

/-! ### Drw -/

section
variable {s t : State} (x y : RegIdx) (n : Nibble)

/-- The closed form of the loop is the sprite bit of rule R141, the bytes being those at I. -/
theorem rowBit_eq_spriteBit (r c : Nat) :
    rowBit (anchorRow (s.reg y)) (anchorColumn (s.reg x)) (s.mem.bytesFrom s.base n.toNat) r c =
      spriteBit s x y n r c := by
  simp only [rowBit, columnBit_range, spriteBit, Memory.length_bytesFrom, anchorRow, anchorColumn, Config.fbHeight,
    Config.fbWidth]
  by_cases hrow : (s.reg y).toNat % 32 ≤ r ∧ r < (s.reg y).toNat % 32 + n.toNat
  · rw [Memory.getD_bytesFrom _ _ _ _ (by omega)]
    simp [hrow, State.base]
  · have hno : ¬ ((s.reg y).toNat % 32 ≤ r ∧ r < (s.reg y).toNat % 32 + n.toNat ∧ (s.reg x).toNat % 64 ≤ c ∧
        c < (s.reg x).toNat % 64 + 8) := fun h => hrow ⟨h.1, h.2.1⟩
    rw [decide_eq_false hrow, decide_eq_false hno, Bool.false_and, Bool.false_and]

theorem pixel_drawCanvas {r c : Nat} (hr : r < 32) (hc : c < 64) :
    (s.drawCanvas x y n).fb.pixel r c = (s.fb.pixel r c ^^ spriteBit s x y n r c) := by
  rw [State.drawCanvas, Canvas.pixel_drawSprite _ _ _ _ hr hc, rowBit_eq_spriteBit]

theorem hit_drawCanvas : (s.drawCanvas x y n).hit = true ↔ Collides s x y n := by
  rw [State.drawCanvas, Canvas.hit_drawSprite]
  simp only [rowBit_eq_spriteBit, Bool.false_eq_true, false_or]
  constructor
  · rintro ⟨r, c, hpix, hbit⟩
    obtain ⟨hr, hc⟩ := Framebuffer.lt_of_pixel hpix
    exact ⟨r, c, hr, hc, hpix, hbit⟩
  · rintro ⟨r, c, -, -, hpix, hbit⟩
    exact ⟨r, c, hpix, hbit⟩

/-- Two draws from states that agree on Vx, Vy, I and the sprite's bytes draw the same bits. -/
theorem spriteBit_congr (hx : t.reg x = s.reg x)
    (hy : t.reg y = s.reg y) (hi : t.i = s.i) (hm : ∀ a, t.mem.read a = s.mem.read a) (r c : Nat) :
    spriteBit t x y n r c = spriteBit s x y n r c := by
  simp only [spriteBit, hx, hy, hi, hm]

/-- VF after a draw is the collision. -/
theorem exec_drw_flag {f : Framebuffer} {hit : Bool} (hhit : hit = true ↔ Collides s x y n) :
    (Collides s x y n → ((s.setFb f).setFlag hit).reg 0xF#4 = 0x01) ∧
      (¬ Collides s x y n → ((s.setFb f).setFlag hit).reg 0xF#4 = 0x00) := by
  have hflag : ((s.setFb f).setFlag hit).reg 0xF#4 = flagByte hit :=
    ((s.setFb f).reg_setFlag hit flagReg).trans (if_pos rfl)
  rw [hflag, ← hhit]
  cases hit <;> simp [flagByte]

end

end Machine

/-! ### The statements -/

open Machine

/-- Settles O54: the loop's canvas against its closed form, pixel by pixel, and its hit against the collision. -/
theorem drwXorsTheSprite : Obligations.DrwXorsTheSprite := by
  intro x y n s h
  have hr : n.toNat = 0 ∨ s.base + n.toNat ≤ 0x1000 := by rw [State.base]; omega
  obtain ⟨hset, hclear⟩ := exec_drw_flag x y n (f := (s.drawCanvas x y n).fb) (hit_drawCanvas x y n)
  exact ⟨_, exec_drw_of_inRange x y hr, fun r c => pixel_drawCanvas x y n, hset, hclear,
    (s.setFb _).setReg_keepsRegsBut flagReg _, s.setFb_setFlag_keepsAllBut_v_fb _ _⟩

/-- Settles O56: the first draw leaves Vx, Vy, I and memory alone, so the second XORs the same bits; on an empty buffer
the first shows exactly the sprite's visible bits, and the second hits every one of them. -/
theorem drawingTwiceCancels : Obligations.DrawingTwiceCancels := by
  intro x y n s t u hx hy h hst htu
  obtain ⟨t', ht, hpix, -, hclear, hregs, hparts⟩ := drwXorsTheSprite x y n s h
  obtain rfl := Host.Outcome.next.inj (ht.symm.trans hst)
  have hi : t'.i = s.i := hparts .i (by simp)
  have hbit := spriteBit_congr x y n (hregs x (by simpa using hx)) (hregs y (by simpa using hy)) hi
    (hparts .mem (by simp))
  obtain ⟨u', hu, hpix', hset', hclear', -, -⟩ := drwXorsTheSprite x y n t' (by rwa [hi])
  obtain rfl := Host.Outcome.next.inj (hu.symm.trans htu)
  refine ⟨Framebuffer.ext fun r c hr hc => ?_, fun hempty => ⟨hclear ?_, ?_⟩⟩
  · rw [hpix' r c hr hc, hpix r c hr hc, hbit, Bool.xor_assoc, Bool.xor_self, Bool.xor_false]
  · rintro ⟨r, c, -, -, hset, -⟩
    rw [hempty] at hset
    cases hset
  · have hshown : ∀ r c, r < 32 → c < 64 → t'.fb.pixel r c = spriteBit s x y n r c := by
      intro r c hr hc
      rw [hpix r c hr hc, hempty, Bool.false_xor]
    have hcoll : Collides t' x y n ↔ ∃ r c : Nat, t'.fb.pixel r c = true := by
      constructor
      · rintro ⟨r, c, -, -, hp, -⟩
        exact ⟨r, c, hp⟩
      · rintro ⟨r, c, hp⟩
        obtain ⟨hr, hc⟩ := Framebuffer.lt_of_pixel hp
        exact ⟨r, c, hr, hc, hp, by rw [hbit, ← hshown r c hr hc, hp]⟩
    rw [← hcoll]
    refine ⟨fun hf => by_contra fun hno => ?_, hset'⟩
    rw [hclear' hno] at hf
    cases hf

end Sys2Proof

end
